-- ==== Sys2Proof/Word.lean ====
section
/-!
DEFINITION. The data widths of the CORE: bytes, the 32-bit register bus, and the 16-byte string that
`KEY`, `AUX` and every call of the block cipher use (spec/00_scope.md section 6.1, rules R3 and R6).
-/

namespace Sys2Proof

/-- A byte: one cell of `BUF`, one `KEYk`, one `AUXk`. -/
abbrev Byte := BitVec 8

/-- A 32-bit value of the register data bus (`XLEN` = 32, R6) and of a command word (R60). -/
abbrev Word := BitVec 32

/-- A 16-byte string with byte 0 first: a key, an AuthBlock, a block of the cipher (R17, R18, R125).
The length travels with the bytes, so a block of any other width cannot be built (R120). -/
structure Block where
  /-- The bytes in order, byte 0 first. -/
  bytes : List Byte
  /-- There are exactly sixteen. -/
  size : bytes.length = 16
deriving DecidableEq, Repr

/-- `X[k]`, byte `k` of a block counted from 0. -/
def Block.get (x : Block) (k : Nat) : Byte := x.bytes.getD k 0

/-- The block whose byte `k` is `f k`. -/
def Block.ofFn (f : Nat → Byte) : Block := ⟨(List.range 16).map f, by simp⟩

/-- Sixteen zero bytes. -/
def Block.zero : Block := ⟨List.replicate 16 0, by simp⟩

/-- The block with byte `k` replaced. -/
def Block.set (x : Block) (k : Nat) (b : Byte) : Block := ⟨x.bytes.set k b, by simp [x.size]⟩

end Sys2Proof
end

