-- ==== Sys2Proof/Config.lean ====
section
/-!
DEFINITION. What an implementation fixes (spec/00_scope.md R6, spec/10_state.md R21) and the one value
the spec leaves free, the content of `BUF` after reset (R22, U6).
-/

namespace Sys2Proof

/-- The open parameter of the CORE. It is fixed for a machine: no step changes it (R21).
DESIGN CHOICE (log 3, safe): the parameter is carried in the state, because `step` takes the state alone;
a statement about every state is then a statement about every `BUFSZ`. -/
structure Config where
  /-- `BUFSZ`, the size of `BUF` in bytes (R6, D4). -/
  bufsz : Nat
deriving DecidableEq, Repr

/-- The default the spec's examples use: `BUFSZ` = 512 (R6, D4). DESIGN CHOICE (log 3). -/
def Config.default : Config := { bufsz := 512 }

/-- FREE VALUE (log 1, safe). `powerUpByte r a` is what byte `a` of `BUF` holds after the reset
numbered `r` until something writes it: "each byte may hold any value, and the values may differ from
one reset to the next" (R22). It has no body: nothing can be proved of its value. -/
opaque Config.powerUpByte : Nat → Nat → Byte

end Sys2Proof
end

