-- ==== Sys2Proof/Syntax.lean ====
section
/-!
DEFINITION. The command set, "CORE command set 1": one constructor per row of spec/opcode_table.json
(spec/30_encoding.md R63). A command carries no operand (R64): every operand is in a register.
-/

namespace Sys2Proof

/-- The fourteen commands of R63, in the table's order. -/
inductive Instr where
  /-- Read a 16-bit little-endian integer (R81). -/
  | rdle16
  /-- Read a 32-bit little-endian integer (R82). -/
  | rdle32
  /-- Read a 32-bit big-endian integer (R83). -/
  | rdbe32
  /-- Write a 16-bit little-endian integer (R84). -/
  | wrle16
  /-- Write a 32-bit little-endian integer (R85). -/
  | wrle32
  /-- Write a 32-bit big-endian integer (R86). -/
  | wrbe32
  /-- Checksum of a buffer range (R90). -/
  | crc16
  /-- Build a block into `AUX` (R96). -/
  | build
  /-- Append the data-frame MIC (R102). -/
  | micapp
  /-- Verify the data-frame MIC (R103). -/
  | micver
  /-- Append the join-frame MIC (R104). -/
  | mic0app
  /-- Verify the join-frame MIC (R105). -/
  | mic0ver
  /-- Encrypt or decrypt a payload in place (R116). -/
  | cipher
  /-- One forward block-cipher transform in place (R117). -/
  | enc
deriving DecidableEq, Repr

end Sys2Proof
end

