-- ==== Sys2Proof/Machine/Transaction.lean ====
section
/-!
DEFINITION. What reaches the CORE from outside: the register map (spec/10_state.md R11, R24), the four
host transactions (spec/20_memory.md R40 to R43), reset (spec/70_reset_and_hazards.md R160), and what
the port answers.
-/

namespace Sys2Proof.Machine

/-- The registers of R11 by name. A reserved number (R24) keeps its number. -/
inductive Reg where
  | cmd | status | off | len | val | crcr | addr | cnt | dir | disc | trail
  | key (k : Fin 16)
  | aux (k : Fin 16)
  | reserved (n : BitVec 6)
deriving DecidableEq, Repr

/-- The register a number 0 to 63 names (R11, R24; `REGBITS` = 6). -/
def regOf (n : BitVec 6) : Reg :=
  match n.toNat / 16, n.toNat % 16 with
  | 0, 0 => .cmd
  | 0, 1 => .status
  | 0, 2 => .off
  | 0, 3 => .len
  | 0, 4 => .val
  | 0, 5 => .crcr
  | 0, 6 => .addr
  | 0, 7 => .cnt
  | 0, 8 => .dir
  | 0, 9 => .disc
  | 0, 10 => .trail
  | 1, k => .key (Fin.ofNat 16 k)
  | 2, k => .aux (Fin.ofNat 16 k)
  | _, _ => .reserved n

/-- The number of a register (R11). -/
def numberOf : Reg → BitVec 6
  | .cmd => 0x00
  | .status => 0x01
  | .off => 0x02
  | .len => 0x03
  | .val => 0x04
  | .crcr => 0x05
  | .addr => 0x06
  | .cnt => 0x07
  | .dir => 0x08
  | .disc => 0x09
  | .trail => 0x0A
  | .key k => 0x10 + BitVec.ofNat 6 k.val
  | .aux k => 0x20 + BitVec.ofNat 6 k.val
  | .reserved n => n

/-- One transaction of the host port (R40 to R43). A buffer address is a natural number: the spec says
what an access at or above `BUFSZ` does. -/
inductive Transaction where
  /-- `RegWrite(n, d)` (R40). -/
  | regWrite (n : BitVec 6) (d : Word)
  /-- `RegRead(n)` (R41). -/
  | regRead (n : BitVec 6)
  /-- `BufWrite(a, b)` (R42). -/
  | bufWrite (a : Nat) (b : Byte)
  /-- `BufRead(a)` (R43). -/
  | bufRead (a : Nat)
deriving DecidableEq, Repr

/-- One thing that can happen to the CORE from outside. -/
inductive Input where
  /-- The host performs a transaction. -/
  | host (t : Transaction)
  /-- The platform asserts reset (R160). DESIGN CHOICE (log 7): between two transactions. -/
  | reset
deriving DecidableEq, Repr

/-- What the port answered to the last input performed. DESIGN CHOICE (log 2): the model's own record of
the value a read returns. -/
inductive Reply where
  /-- No transaction has been answered since reset. -/
  | nothing
  /-- A write completed; it returns no data. -/
  | done
  /-- `RegRead` returned this 32-bit value. -/
  | word (d : Word)
  /-- `BufRead` returned this byte. -/
  | byte (b : Byte)
deriving DecidableEq, Repr

end Sys2Proof.Machine
end

