-- ==== Sys2Proof/WellFormed.lean ====
section
/-!
DEFINITION. What is well formed: a command (always: it has no operand, R64), the parameter `BUFSZ` (R6),
and a transaction that software is allowed to make (spec/93_implementation_defined.md U8).
-/

namespace Sys2Proof

/-- Every command is well formed: a command word has no operand field (R60, R64). -/
def Instr.wf : Instr → Bool
  | .rdle16 => true
  | .rdle32 => true
  | .rdbe32 => true
  | .wrle16 => true
  | .wrle32 => true
  | .wrbe32 => true
  | .crc16 => true
  | .build => true
  | .micapp => true
  | .micver => true
  | .mic0app => true
  | .mic0ver => true
  | .cipher => true
  | .enc => true

/-- 16 <= `BUFSZ` <= 65536 (R6). -/
def Config.wf (c : Config) : Bool := decide (16 ≤ c.bufsz) && decide (c.bufsz ≤ 65536)

namespace Machine

/-- The bits of `STATUS` that are reserved: 3:2 and 31:6 (R16). -/
def statusReservedMask : Word := 0xFFFFFFCC

/-- The transactions U8 does not forbid to software: no reserved register number, no write to a read-only
register, no read of a write-only register, no non-zero reserved bit in a write to `STATUS`, no buffer
address at or above `BUFSZ`. The hardware defines the forbidden ones too, and the machine performs them. -/
def Transaction.wf (bufsz : Nat) : Transaction → Bool
  | .regWrite n d =>
    match regOf n with
    | .crcr => false
    | .aux _ => false
    | .reserved _ => false
    | .status => (d &&& statusReservedMask) == 0
    | _ => true
  | .regRead n =>
    match regOf n with
    | .key _ => false
    | .reserved _ => false
    | _ => true
  | .bufWrite a _ => decide (a < bufsz)
  | .bufRead a => decide (a < bufsz)

end Machine

end Sys2Proof
end

