-- ==== Sys2Proof/Decode.lean ====
section
/-!
DEFINITION. Decoding a command word by its fields (spec/30_encoding.md R60, R61, R62) and, after it, the
encoder written from the table of command words (R63).
-/

namespace Sys2Proof

/-- Why a word is no command. Either way the CORE answers `ERR_OPCODE` (R65). -/
inductive DecodeError where
  /-- `w[31:8]` is not 0 (R62). -/
  | upperBitsSet
  /-- `w[31:8]` is 0 and `w[7:0]` is none of the fourteen opcodes (R65). -/
  | reservedOpcode
deriving DecidableEq, Repr

/-- Unit 0, the byte codec: `fn[3]` must be 0, `fn[2]` is `wr`, `fn[1:0]` is `sel`, and `sel` = 0 is
reserved (R61). -/
def decodeCodec (fn : BitVec 4) : Except DecodeError Instr :=
  match fn.extractLsb' 3 1, fn.extractLsb' 2 1, fn.extractLsb' 0 2 with
  | 0#1, 0#1, 1#2 => .ok .rdle16
  | 0#1, 0#1, 2#2 => .ok .rdle32
  | 0#1, 0#1, 3#2 => .ok .rdbe32
  | 0#1, 1#1, 1#2 => .ok .wrle16
  | 0#1, 1#1, 2#2 => .ok .wrle32
  | 0#1, 1#1, 3#2 => .ok .wrbe32
  | _, _, _ => .error .reservedOpcode

/-- Unit 3, the MIC engine: `fn[3:2]` must be 0, `fn[1]` is `nob0`, `fn[0]` is `ver` (R61). -/
def decodeMic (fn : BitVec 4) : Except DecodeError Instr :=
  match fn.extractLsb' 2 2, fn.extractLsb' 1 1, fn.extractLsb' 0 1 with
  | 0#2, 0#1, 0#1 => .ok .micapp
  | 0#2, 0#1, 1#1 => .ok .micver
  | 0#2, 1#1, 0#1 => .ok .mic0app
  | 0#2, 1#1, 1#1 => .ok .mic0ver
  | _, _, _ => .error .reservedOpcode

/-- The opcode `unit ++ fn` (R60, R61). -/
def decodeOpcode (unit fn : BitVec 4) : Except DecodeError Instr :=
  match unit with
  | 0#4 => decodeCodec fn
  | 1#4 => if fn = 0 then .ok .crc16 else .error .reservedOpcode
  | 2#4 => if fn = 0 then .ok .build else .error .reservedOpcode
  | 3#4 => decodeMic fn
  | 4#4 => if fn = 0 then .ok .cipher else if fn = 1 then .ok .enc else .error .reservedOpcode
  | _ => .error .reservedOpcode

/-- Decode of a command word (R62). It depends on the word alone. -/
def decode (w : Word) : Except DecodeError Instr :=
  if w.extractLsb' 8 24 = 0 then decodeOpcode (w.extractLsb' 4 4) (w.extractLsb' 0 4)
  else .error .upperBitsSet

/-- The command word of each command (R63). -/
def encode : Instr → Word
  | .rdle16 => 0x00000001
  | .rdle32 => 0x00000002
  | .rdbe32 => 0x00000003
  | .wrle16 => 0x00000005
  | .wrle32 => 0x00000006
  | .wrbe32 => 0x00000007
  | .crc16 => 0x00000010
  | .build => 0x00000020
  | .micapp => 0x00000030
  | .micver => 0x00000031
  | .mic0app => 0x00000032
  | .mic0ver => 0x00000033
  | .cipher => 0x00000040
  | .enc => 0x00000041

/-- The word that a table row's `nbits` bits stand for: every bit above them is 0. -/
def tableWord (nbits w : Nat) : Nat := w % 2 ^ nbits

/-- The command the decoder reads from the bits of a row of the opcode table. A command word has 32 bits
(R67); a longer number is none. The word is a value of the register bus, which has no byte order (R46). -/
def decodeTableWord (nbits w : Nat) : Option Instr :=
  if tableWord nbits w < 2 ^ 32 then
    match decode (BitVec.ofNat 32 (tableWord nbits w)) with
    | .ok i => some i
    | .error _ => none
  else none

end Sys2Proof
end

