-- ==== Sys2Proof/Machine/State.lean ====
section
/-!
DEFINITION. The state of the CORE as plain data: everything spec/10_state.md R10 lists, the parameter of
R6, and the model's own three fields (INVENTORY.md, State). `State.reset` is R22.
-/

namespace Sys2Proof.Machine

/-- `BUF` as the bytes written since reset: (address, byte) pairs, addresses strictly rising. An unlisted
address holds no value written since reset (log 1). -/
abbrev Memory := List Host.Cell

/-- The causes of an error (R141). -/
inductive Err where
  /-- Code 1, `ERR_OPCODE`: the command word is none of the fourteen (R65). -/
  | opcode
  /-- Code 2, `ERR_LEN`: `LEN` is outside the command's limits (R106, R119). -/
  | len
  /-- Code 3, `ERR_RANGE`: the footprint does not fit the buffer (R44). -/
  | range
deriving DecidableEq, Repr

/-- `STATUS` by its three fields (R14, R16). The reserved bits read as 0 and hold nothing. -/
structure Status where
  /-- `MATCH`, bit 0. -/
  matched : Bool
  /-- `ERRS`, bit 1, sticky. -/
  errs : Bool
  /-- `ERR`, bits 5:4: none is code 0. -/
  err : Option Err
deriving DecidableEq, Repr

/-- The whole state. -/
structure State where
  /-- The parameters, fixed for the machine (R6, R21; log 3). -/
  cfg : Config
  /-- `OFF`, register 0x02 (R11). -/
  off : BitVec 16
  /-- `LEN`, register 0x03 (R11). -/
  len : BitVec 16
  /-- `VAL`, register 0x04 (R11). -/
  val : BitVec 32
  /-- `CRCR`, register 0x05 (R11). -/
  crcr : BitVec 16
  /-- `ADDR`, register 0x06 (R11). -/
  addr : BitVec 32
  /-- `CNT`, register 0x07 (R11). -/
  cnt : BitVec 32
  /-- `DIR`, register 0x08: 0 = uplink, 1 = downlink (R11, conflict C1). -/
  dir : BitVec 1
  /-- `DISC`, register 0x09 (R11). -/
  disc : BitVec 8
  /-- `TRAIL`, register 0x0A (R11). -/
  trail : BitVec 8
  /-- `STATUS`, register 0x01 (R16). -/
  status : Status
  /-- `KEY0` to `KEY15`, registers 0x10 to 0x1F (R17). -/
  key : Block
  /-- `AUX0` to `AUX15`, registers 0x20 to 0x2F (R18). -/
  aux : Block
  /-- `BUF` (R19). -/
  buf : Memory
  /-- The model's own: the index of the free bytes of `BUF` since the last reset (log 1). -/
  resets : Nat
  /-- The model's own: what the host and the platform have yet to send, oldest first (log 2). -/
  inputs : List Input
  /-- The model's own: what the port answered last (log 2). -/
  reply : Reply
deriving DecidableEq, Repr

/-- The CORE stops with no fault: "there is no state in which it stops accepting transactions" (R140,
R148, R177). Its errors are codes in `STATUS` (R143), so this type has no constructor. -/
inductive Fault
deriving DecidableEq, Repr

/-- Why the model gives an instruction no meaning. -/
inductive Refusal where
  /-- Raised by an arm of `exec` whose command has no meaning yet; no arm does. Safe: the model stops. -/
  | notModelled (mnemonic : String)
deriving DecidableEq, Repr

/-- The state right after reset (R22, R160): every register, `KEY` and `AUX` zero, `BUF` unspecified.
DESIGN CHOICE: the default `BUFSZ` (log 3), the free-byte index 0 (log 1), no pending input and no answer
(log 2). -/
def State.reset : State where
  cfg := Config.default
  off := 0
  len := 0
  val := 0
  crcr := 0
  addr := 0
  cnt := 0
  dir := 0
  disc := 0
  trail := 0
  status := { matched := false, errs := false, err := none }
  key := Block.zero
  aux := Block.zero
  buf := []
  resets := 0
  inputs := []
  reply := .nothing

/-! ## Named updates: one field each -/

/-- `VAL <- v`. -/
def State.setVal (s : State) (v : BitVec 32) : State := { s with val := v }

/-- `CRCR <- v`. -/
def State.setCrcr (s : State) (v : BitVec 16) : State := { s with crcr := v }

/-- `AUX <- x`, all sixteen bytes (R18). -/
def State.setAux (s : State) (x : Block) : State := { s with aux := x }

/-- The buffer replaced. -/
def State.setBuf (s : State) (m : Memory) : State := { s with buf := m }

/-- `STATUS` replaced. -/
def State.setStatus (s : State) (t : Status) : State := { s with status := t }

/-- The pending inputs replaced. -/
def State.setInputs (s : State) (is : List Input) : State := { s with inputs := is }

/-- The port's answer replaced. -/
def State.setReply (s : State) (r : Reply) : State := { s with reply := r }

end Sys2Proof.Machine
end

