-- ==== Sys2Proof/Machine/Flags.lean ====
section
/-!
DEFINITION. The flags: `STATUS` as a word and every way it changes (spec/10_state.md R14, R16;
spec/60_exceptions.md R141, R143, R144). The CORE has no arithmetic condition codes (R14).
-/

namespace Sys2Proof.Machine

/-- The code of `STATUS.ERR` (R141): 0 none, 1 `ERR_OPCODE`, 2 `ERR_LEN`, 3 `ERR_RANGE`. -/
def errCode : Option Err → BitVec 2
  | none => 0
  | some .opcode => 1
  | some .len => 2
  | some .range => 3

/-- `STATUS` as `RegRead(0x01)` gives it: `MATCH` in bit 0, `ERRS` in bit 1, `ERR` in bits 5:4, every
other bit 0 (R16). -/
def statusWord (t : Status) : Word :=
  (BitVec.ofBool t.matched).setWidth 32 ||| ((BitVec.ofBool t.errs).setWidth 32 <<< 1)
    ||| ((errCode t.err).setWidth 32 <<< 4)

/-- The status after a command that ended in error: `ERR <- code`, `ERRS <- 1`, `MATCH <- 0` (R143). -/
def statusAfterError (c : Err) : Status := { matched := false, errs := true, err := some c }

/-- The status after a command that ran to its end: `ERR <- 0`, `MATCH <- m`, `ERRS` as it was (R144). -/
def statusAfterEnd (m : Bool) (t : Status) : Status := { matched := m, errs := t.errs, err := none }

/-- `RegWrite(0x01, d)`: `ERRS <- 0` if `d[1]` = 1; nothing else (R16). -/
def statusWrite (d : Word) (t : Status) : Status :=
  if d.getLsbD 1 then { t with errs := false } else t

/-- The comparison of a verify: all four byte pairs, `MATCH` is the AND of the four equalities (R103,
R105, R109). -/
def tagMatches (received computed : List Byte) : Bool :=
  (List.range 4).all fun k => received.getD k 0 == computed.getD k 0

end Sys2Proof.Machine
end

