-- ==== Sys2Proof/Machine/Operands.lean ====
section
/-!
DEFINITION. Operand forms: byte orders (spec/40_byte_codec.md R80), footprints and length limits of the
commands (spec/20_memory.md R44; spec/60_exceptions.md R141), block arithmetic (spec/43_mic_engine.md R100).
-/

namespace Sys2Proof.Machine

/-! ## Byte order (R46, R80) -/

/-- `le_val(X)`: the sum over `k` of `X[k] * 256^k` (R80). -/
def leVal : List Byte → Nat
  | [] => 0
  | b :: x => b.toNat + 256 * leVal x

/-- `be_val(X)`: the sum over `k` of `X[k] * 256^(n-1-k)` (R80), in Horner's form. -/
def beVal (x : List Byte) : Nat := x.foldl (fun v b => 256 * v + b.toNat) 0

/-- `le_bytes_n(v)`: byte `k` is `(v >> 8k) & 0xFF` (R80). -/
def leBytes (n v : Nat) : List Byte := (List.range n).map fun k => BitVec.ofNat 8 (v >>> (8 * k))

/-- `be_bytes_n(v)`: byte `k` is `(v >> 8(n-1-k)) & 0xFF` (R80). -/
def beBytes (n v : Nat) : List Byte :=
  (List.range n).map fun k => BitVec.ofNat 8 (v >>> (8 * (n - 1 - k)))

/-! ## Footprints and limits -/

/-- `need`: how many bytes of `BUF` from `OFF` a command touches, for a given `LEN` (R44). `BUILD` has no
buffer access and no check. -/
def need : Instr → Nat → Option Nat
  | .rdle16, _ => some 2
  | .rdle32, _ => some 4
  | .rdbe32, _ => some 4
  | .wrle16, _ => some 2
  | .wrle32, _ => some 4
  | .wrbe32, _ => some 4
  | .crc16, len => some len
  | .build, _ => none
  | .micapp, len => some (len + 4)
  | .micver, len => some (len + 4)
  | .mic0app, len => some (len + 4)
  | .mic0ver, len => some (len + 4)
  | .cipher, len => some len
  | .enc, _ => some 16

/-- The limits of the MIC commands: 1 <= `LEN` <= 255 (R106). -/
def micLenOk (len : Nat) : Bool := decide (1 ≤ len) && decide (len ≤ 255)

/-- Whether `LEN` is within the command's limits (R106, R119, R141). -/
def lenOk : Instr → Nat → Bool
  | .rdle16, _ => true
  | .rdle32, _ => true
  | .rdbe32, _ => true
  | .wrle16, _ => true
  | .wrle32, _ => true
  | .wrbe32, _ => true
  | .crc16, _ => true
  | .build, _ => true
  | .micapp, len => micLenOk len
  | .micver, len => micLenOk len
  | .mic0app, len => micLenOk len
  | .mic0ver, len => micLenOk len
  | .cipher, len => decide (len ≤ 4080)
  | .enc, _ => true

/-! ## Blocks -/

/-- `ceil(n/16)` (00_scope.md section 6.1). -/
def ceil16 (n : Nat) : Nat := (n + 15) / 16

/-- `^` on two 16-byte strings, byte by byte (00_scope.md section 6.1). -/
def xorBlock (x y : Block) : Block :=
  ⟨List.zipWith (· ^^^ ·) x.bytes y.bytes, by simp [x.size, y.size]⟩

/-- A byte string extended on the right with zero bytes to exactly sixteen (R100). -/
def padBlock (x : List Byte) : Block :=
  ⟨(x ++ List.replicate 16 0).take 16, by simp⟩

end Sys2Proof.Machine
end

