-- ==== Sys2Proof/Machine/Ops.lean ====
section
/-!
DEFINITION. The named operations over `BUF` and the registers (spec/00_scope.md section 6.2), reporting
an error (spec/60_exceptions.md R143), ending a command (R144), and the check-then-act skeleton that every
command shares (R142).
-/

namespace Sys2Proof.Machine

/-! ## The buffer as a list of cells -/

/-- The canonical form: addresses strictly rising. What an unlisted address holds (no value) is no byte,
so no entry can equal it (log 1). -/
abbrev Memory.wf (m : Memory) : Prop := m.Pairwise fun p q => p.1 < q.1

/-- Every listed address is below `n`. -/
abbrev Memory.below (n : Nat) (m : Memory) : Prop := ∀ c ∈ m, c.1 < n

/-- What an unlisted address holds: no value written since reset (log 1). -/
def Memory.unlisted : Option Byte := none

/-- The byte written to an address since reset, if any. -/
def Memory.lookup : Memory → Nat → Option Byte
  | [], _ => Memory.unlisted
  | (x, b) :: m, a => if a = x then some b else Memory.lookup m a

/-- One byte written at its place in the order. -/
def Memory.write : Memory → Nat → Byte → Memory
  | [], a, b => [(a, b)]
  | (x, c) :: m, a, b =>
    if a < x then (a, b) :: (x, c) :: m
    else if a = x then (a, b) :: m
    else (x, c) :: Memory.write m a b

/-- Consecutive bytes written from an address up. -/
def Memory.writeBytes : Memory → Nat → List Byte → Memory
  | m, _, [] => m
  | m, a, b :: x => Memory.writeBytes (Memory.write m a b) (a + 1) x

/-! ## Reading and writing `BUF` -/

/-- `BUF[a]`: the byte written there since reset, else the free byte of that reset (R22, U6; log 1). -/
def readByte (s : State) (a : Nat) : Byte :=
  (s.buf.lookup a).getD (Config.powerUpByte s.resets a)

/-- `MemRead(a, n)`: byte `k` is `BUF[a+k]`; no side effect (00_scope.md section 6.2). -/
def memRead (s : State) (a n : Nat) : List Byte := (List.range n).map fun k => readByte s (a + k)

/-- `MemWrite(a, n, X)` with `n` the length of `X`: `BUF[a+k] <- X[k]`; no other byte changes
(00_scope.md section 6.2). -/
def memWrite (a : Nat) (x : List Byte) (s : State) : State := s.setBuf (s.buf.writeBytes a x)

/-! ## Error and end of a command -/

/-- `raise Err(code)` (R143): the CORE's whole form of taking an exception. It changes `STATUS` and
nothing else; no control goes anywhere (R147), and there is nothing to return from (R148). -/
def raiseErr (c : Err) (s : State) : State := s.setStatus (statusAfterError c)

/-- The status update of a command that runs to its end, with comparison result `m` (R144). -/
def finish (m : Bool) (s : State) : State := s.setStatus (statusAfterEnd m s.status)

/-- The checks of a decoded command in their fixed order, length then range (R142). None: all pass. -/
def checkError (i : Instr) (s : State) : Option Err :=
  if lenOk i s.len.toNat then
    match need i s.len.toNat with
    | none => none
    | some n => if s.off.toNat + n ≤ s.cfg.bufsz then none else some .range
  else some .len

/-- A command: the checks first; the first that fails is reported and nothing else changes; otherwise the
command has its whole effect (R142, R143). -/
def command (i : Instr) (body : State → State) (s : State) : Host.Outcome State Fault Refusal :=
  match checkError i s with
  | some c => .next (raiseErr c s)
  | none => .next (body s)

end Sys2Proof.Machine
end

