-- ==== Sys2Proof/Machine/Builder.lean ====
section
/-!
DEFINITION. The counter / B0 block constructor (spec/42_block_builder.md R95 to R97).
-/

namespace Sys2Proof.Machine

/-- The AuthBlock layout (R95): discriminator, four zero bytes, the direction in byte 5 for every
discriminator (conflict C3), address and counter little-endian, a zero byte, the trailing byte. -/
def authBlock (disc : Byte) (dir : BitVec 1) (addr cnt : Word) (trail : Byte) : Block :=
  ⟨[disc, 0, 0, 0, 0, dir.setWidth 8] ++ leBytes 4 addr.toNat ++ leBytes 4 cnt.toNat ++ [0, trail],
    by simp [leBytes]⟩

/-- `BUILD` (R96): all of `AUX`, nothing else; it has no check and cannot fail. -/
def execBuild (s : State) : Host.Outcome State Fault Refusal :=
  command .build (fun s => finish false (s.setAux (authBlock s.disc s.dir s.addr s.cnt s.trail))) s

end Sys2Proof.Machine
end

