-- ==== Sys2Proof/Machine/Codec.lean ====
section
/-!
DEFINITION. The byte codec, six commands (spec/40_byte_codec.md R80 to R89). One addressing mode: byte `k`
of the operand is `BUF[OFF + k]` (R88).
-/

namespace Sys2Proof.Machine

/-- A codec read of `n` bytes: `VAL` becomes the value of the bytes from `OFF`, zero-extended. -/
def codecRead (i : Instr) (n : Nat) (value : List Byte → Nat) (s : State) :
    Host.Outcome State Fault Refusal :=
  command i (fun s => finish false (s.setVal (BitVec.ofNat 32 (value (memRead s s.off.toNat n))))) s

/-- A codec write: the bytes made from `VAL` go to `BUF` from `OFF`. -/
def codecWrite (i : Instr) (bytes : Word → List Byte) (s : State) :
    Host.Outcome State Fault Refusal :=
  command i (fun s => finish false (memWrite s.off.toNat (bytes s.val) s)) s

/-- `RDLE16` (R81). -/
def execRdle16 (s : State) : Host.Outcome State Fault Refusal := codecRead .rdle16 2 leVal s

/-- `RDLE32` (R82). -/
def execRdle32 (s : State) : Host.Outcome State Fault Refusal := codecRead .rdle32 4 leVal s

/-- `RDBE32` (R83). -/
def execRdbe32 (s : State) : Host.Outcome State Fault Refusal := codecRead .rdbe32 4 beVal s

/-- `WRLE16` (R84): `VAL[15:0]`, the upper half ignored. -/
def execWrle16 (s : State) : Host.Outcome State Fault Refusal :=
  codecWrite .wrle16 (fun v => leBytes 2 (v.extractLsb' 0 16).toNat) s

/-- `WRLE32` (R85). -/
def execWrle32 (s : State) : Host.Outcome State Fault Refusal :=
  codecWrite .wrle32 (fun v => leBytes 4 v.toNat) s

/-- `WRBE32` (R86). -/
def execWrbe32 (s : State) : Host.Outcome State Fault Refusal :=
  codecWrite .wrbe32 (fun v => beBytes 4 v.toNat) s

end Sys2Proof.Machine
end

