-- ==== Sys2Proof/Machine/Crc.lean ====
section
/-!
DEFINITION. The CRC-16 generator (spec/41_crc16.md R90 to R92).
-/

namespace Sys2Proof.Machine

/-- One round: the decision bit is the top bit before the shift (R91). -/
def crcRound (acc : BitVec 16) : BitVec 16 :=
  if acc.getLsbD 15 then (acc <<< 1) ^^^ 0x1021#16 else acc <<< 1

/-- `n` rounds. -/
def crcRounds : Nat → BitVec 16 → BitVec 16
  | 0, acc => acc
  | n + 1, acc => crcRounds n (crcRound acc)

/-- One byte: XOR into bits 15:8, then eight rounds (R91). -/
def crcByte (acc : BitVec 16) (b : Byte) : BitVec 16 := crcRounds 8 (acc ^^^ (b.setWidth 16 <<< 8))

/-- `crc16(X)`: the accumulator starts at 0 and takes the bytes in order from index 0 (R91). -/
def crc16 (x : List Byte) : BitVec 16 := x.foldl crcByte 0

/-- `CRC16` (R90). -/
def execCrc16 (s : State) : Host.Outcome State Fault Refusal :=
  command .crc16 (fun s => finish false (s.setCrcr (crc16 (memRead s s.off.toNat s.len.toNat)))) s

end Sys2Proof.Machine
end

