-- ==== Sys2Proof/Machine/Aes.lean ====
section
/-!
DEFINITION. The block cipher collaborator `E` (spec/45_block_cipher.md). Its interface is R125: a total
function of a key and a block. The instance is AES-128 forward (R134), written from R127 to R131, which the
spec gives as general knowledge (log 4). No law of the MIC and cipher engines rests on the instance.
-/

namespace Sys2Proof.Machine

/-- `xtime(a)`: multiplication by 2 in GF(2^8) with the polynomial 0x11B (R127). -/
def xtime (a : Byte) : Byte := if a.getLsbD 7 then (a <<< 1) ^^^ 0x1B#8 else a <<< 1

/-- Multiplication by 3 (R127). -/
def times3 (a : Byte) : Byte := xtime a ^^^ a

/-- Row `x` of the S-box table, its sixteen bytes read as one number, column 0 first (R128). -/
def sboxRow : Nat → Nat
  | 0x0 => 0x637C777BF26B6FC53001672BFED7AB76
  | 0x1 => 0xCA82C97DFA5947F0ADD4A2AF9CA472C0
  | 0x2 => 0xB7FD9326363FF7CC34A5E5F171D83115
  | 0x3 => 0x04C723C31896059A071280E2EB27B275
  | 0x4 => 0x09832C1A1B6E5AA0523BD6B329E32F84
  | 0x5 => 0x53D100ED20FCB15B6ACBBE394A4C58CF
  | 0x6 => 0xD0EFAAFB434D338545F9027F503C9FA8
  | 0x7 => 0x51A3408F929D38F5BCB6DA2110FFF3D2
  | 0x8 => 0xCD0C13EC5F974417C4A77E3D645D1973
  | 0x9 => 0x60814FDC222A908846EEB814DE5E0BDB
  | 0xA => 0xE0323A0A4906245CC2D3AC629195E479
  | 0xB => 0xE7C8376D8DD54EA96C56F4EA657AAE08
  | 0xC => 0xBA78252E1CA6B4C6E8DD741F4BBD8B8A
  | 0xD => 0x703EB5664803F60E613557B986C11D9E
  | 0xE => 0xE1F8981169D98E949B1E87E9CE5528DF
  | _ => 0x8CA1890DBFE6426841992D0FB054BB16

/-- `SBOX[x]`: the row is the high digit, the column the low digit (R128). -/
def sbox (x : Byte) : Byte :=
  BitVec.ofNat 8 (sboxRow (x.toNat / 16) >>> (8 * (15 - x.toNat % 16)))

/-- `RCON[1..10]` (R129). -/
def rcon : Nat → Byte
  | 1 => 0x01
  | 2 => 0x02
  | 3 => 0x04
  | 4 => 0x08
  | 5 => 0x10
  | 6 => 0x20
  | 7 => 0x40
  | 8 => 0x80
  | 9 => 0x1B
  | 10 => 0x36
  | _ => 0

/-- Round key `r` from round key `r - 1`, one byte at a time: words `w[4r]` to `w[4r+3]` of R129, byte
`4j + b` being byte `b` of word `4r + j`. Word `4r` is word `4(r-1)` XOR `SubWord(RotWord(w[4r-1]))` XOR the
round constant; each later word is the word before it XOR the word four back. -/
def nextRoundKey (r : Nat) (k : Block) : Block :=
  let t : Nat → Byte := fun b => sbox (k.get (12 + (b + 1) % 4)) ^^^ (if b = 0 then rcon r else 0)
  let w0 : Nat → Byte := fun b => k.get b ^^^ t b
  let w1 : Nat → Byte := fun b => k.get (4 + b) ^^^ w0 b
  let w2 : Nat → Byte := fun b => k.get (8 + b) ^^^ w1 b
  let w3 : Nat → Byte := fun b => k.get (12 + b) ^^^ w2 b
  ⟨(List.range 4).map w0 ++ (List.range 4).map w1 ++ (List.range 4).map w2 ++ (List.range 4).map w3,
    by simp⟩

/-- Round key `r` of a key (R129); round key 0 is the key. -/
def roundKey (k : Block) : Nat → Block
  | 0 => k
  | r + 1 => nextRoundKey (r + 1) (roundKey k r)

/-- `SubBytes` (R130). -/
def subBytes (x : Block) : Block := Block.ofFn fun p => sbox (x.get p)

/-- `ShiftRows` (R130): `s'[r][c] = s[r][(c + r) mod 4]`, with `s[r][c]` at byte `r + 4c` (R127). -/
def shiftRows (x : Block) : Block :=
  Block.ofFn fun p => x.get (p % 4 + 4 * ((p / 4 + p % 4) % 4))

/-- `MixColumns` (R130): row `r` of a column is `2a[r] ^ 3a[r+1] ^ a[r+2] ^ a[r+3]`, rows mod 4. -/
def mixColumns (x : Block) : Block :=
  Block.ofFn fun p =>
    let a : Nat → Byte := fun j => x.get ((p % 4 + j) % 4 + 4 * (p / 4))
    xtime (a 0) ^^^ times3 (a 1) ^^^ a 2 ^^^ a 3

/-- Rounds 1 to `r` of the nine full rounds (R131). -/
def aesRounds (k : Block) : Nat → Block → Block
  | 0, x => x
  | r + 1, x => xorBlock (mixColumns (shiftRows (subBytes (aesRounds k r x)))) (roundKey k (r + 1))

/-- The AES-128 forward cipher (R131): `AddRoundKey(0)`, nine full rounds, the last round without
`MixColumns`. -/
def aes128 (k x : Block) : Block :=
  xorBlock (shiftRows (subBytes (aesRounds k 9 (xorBlock x (roundKey k 0))))) (roundKey k 10)

/-- `E(K, B)` of this machine (R125, R134), with no byte or bit reversal on the way in or out (R126). -/
def blockCipher (k x : Block) : Block := aes128 k x

end Sys2Proof.Machine
end

