-- ==== Sys2Proof/Machine/Mic.lean ====
section
/-!
DEFINITION. The AES-CBC-MAC authentication engine (spec/43_mic_engine.md R100 to R109). Every operation
takes the block cipher `E` as an argument (R125); the four commands use the machine's `blockCipher`.
-/

namespace Sys2Proof.Machine

/-- Chunk `j` of a message, `j` = 1, 2, ...: `M[16(j-1) .. min(16j, n))`, zero bytes on the right to
sixteen (R100, `MAC_FINAL` = `ZEROPAD`, conflict C2). -/
def chunk (m : List Byte) (j : Nat) : Block := padBlock ((m.drop (16 * (j - 1))).take 16)

/-- `mac(K, C0, M)` (R100): for each chunk in order, `C <- E(K, C ^ P_j)`. -/
def mac (E : Block → Block → Block) (k c0 : Block) (m : List Byte) : Block :=
  (List.range' 1 (ceil16 m.length)).foldl (fun c j => E k (xorBlock c (chunk m j))) c0

/-- The block B0 of the data-frame MIC (R97, R101): discriminator 0x49, trailing byte `LEN[7:0]`. -/
def dataB0 (s : State) : Block := authBlock 0x49 s.dir s.addr s.cnt (s.len.extractLsb' 0 8)

/-- The message `BUF[OFF .. OFF+LEN)` (R102). -/
def micMessage (s : State) : List Byte := memRead s s.off.toNat s.len.toNat

/-- The tag: the first four bytes of the final chaining value (R101). -/
def micTag (E : Block → Block → Block) (c0 : Block) (s : State) : List Byte :=
  (mac E s.key c0 (micMessage s)).bytes.take 4

/-- Where the four MIC bytes lie: `BUF[OFF+LEN .. OFF+LEN+4)` (R102 to R105). -/
def micAddress (s : State) : Nat := s.off.toNat + s.len.toNat

/-- Append: `AUX` becomes `aux s`, the tag computed from `c0 s` goes after the message (R102, R104). -/
def micAppend (E : Block → Block → Block) (i : Instr) (c0 aux : State → Block) (s : State) :
    Host.Outcome State Fault Refusal :=
  command i
    (fun s => finish false (memWrite (micAddress s) (micTag E (c0 s) s) (s.setAux (aux s)))) s

/-- Verify: `AUX` becomes `aux s`, `MATCH` is the comparison, no byte of `BUF` changes (R103, R105). -/
def micVerify (E : Block → Block → Block) (i : Instr) (c0 aux : State → Block) (s : State) :
    Host.Outcome State Fault Refusal :=
  command i
    (fun s => finish (tagMatches (memRead s (micAddress s) 4) (micTag E (c0 s) s)) (s.setAux (aux s))) s

/-- `MICAPP` with block cipher `E` (R102). -/
def micappWith (E : Block → Block → Block) (s : State) : Host.Outcome State Fault Refusal :=
  micAppend E .micapp (fun s => E s.key (dataB0 s)) dataB0 s

/-- `MICVER` with block cipher `E` (R103). -/
def micverWith (E : Block → Block → Block) (s : State) : Host.Outcome State Fault Refusal :=
  micVerify E .micver (fun s => E s.key (dataB0 s)) dataB0 s

/-- `MIC0APP` with block cipher `E` (R104): a zero initial chaining value; `AUX` is kept (R107). -/
def mic0appWith (E : Block → Block → Block) (s : State) : Host.Outcome State Fault Refusal :=
  micAppend E .mic0app (fun _ => Block.zero) State.aux s

/-- `MIC0VER` with block cipher `E` (R105): a zero initial chaining value; `AUX` is kept (R107). -/
def mic0verWith (E : Block → Block → Block) (s : State) : Host.Outcome State Fault Refusal :=
  micVerify E .mic0ver (fun _ => Block.zero) State.aux s

/-- `MICAPP` (R102). -/
def execMicapp (s : State) : Host.Outcome State Fault Refusal := micappWith blockCipher s

/-- `MICVER` (R103). -/
def execMicver (s : State) : Host.Outcome State Fault Refusal := micverWith blockCipher s

/-- `MIC0APP` (R104). -/
def execMic0app (s : State) : Host.Outcome State Fault Refusal := mic0appWith blockCipher s

/-- `MIC0VER` (R105). -/
def execMic0ver (s : State) : Host.Outcome State Fault Refusal := mic0verWith blockCipher s

end Sys2Proof.Machine
end

