-- ==== Sys2Proof/Machine/Stream.lean ====
section
/-!
DEFINITION. The AES-CTR stream cipher engine (spec/44_stream_cipher.md R115 to R120). Every operation takes
the block cipher `E` as an argument (R125); the two commands use the machine's `blockCipher`.
-/

namespace Sys2Proof.Machine

/-- The counter block `A_i` (R97, R115): discriminator 0x01, trailing byte the block index, and the
direction in byte 5 (conflict C3). -/
def counterBlock (s : State) (i : Nat) : Block :=
  authBlock 0x01 s.dir s.addr s.cnt (BitVec.ofNat 8 i)

/-- The keystream block `S_i = E(K, A_i)` (R115). -/
def keystreamBlock (E : Block → Block → Block) (s : State) (i : Nat) : Block :=
  E s.key (counterBlock s i)

/-- Keystream byte `p`, counted from 0: `S_(p div 16 + 1)[p mod 16]` (R115). -/
def keystreamByte (E : Block → Block → Block) (s : State) (p : Nat) : Byte :=
  (keystreamBlock E s (p / 16 + 1)).get (p % 16)

/-- One turn of the loop of `CIPHER`, block index `i` (R116): `AUX <- A_i`, and the bytes of block `i`, at
most sixteen, are XORed with `S_i`. -/
def cipherBlock (E : Block → Block → Block) (s : State) (i : Nat) : State :=
  let q := 16 * (i - 1)
  let x := memRead s (s.off.toNat + q) (min 16 (s.len.toNat - q))
  memWrite (s.off.toNat + q) (List.zipWith (· ^^^ ·) x (keystreamBlock E s i).bytes)
    (s.setAux (counterBlock s i))

/-- The whole loop of `CIPHER`: block indices 1 to `ceil(LEN/16)` (R116). -/
def cipherLoop (E : Block → Block → Block) (s : State) : State :=
  (List.range' 1 (ceil16 s.len.toNat)).foldl (cipherBlock E) s

/-- `CIPHER` with block cipher `E` (R116). -/
def cipherWith (E : Block → Block → Block) (s : State) : Host.Outcome State Fault Refusal :=
  command .cipher (fun s => finish false (cipherLoop E s)) s

/-- `ENC` with block cipher `E` (R117). -/
def encWith (E : Block → Block → Block) (s : State) : Host.Outcome State Fault Refusal :=
  command .enc
    (fun s => finish false
      (memWrite s.off.toNat (E s.key (padBlock (memRead s s.off.toNat 16))).bytes s)) s

/-- `CIPHER` (R116). -/
def execCipher (s : State) : Host.Outcome State Fault Refusal := cipherWith blockCipher s

/-- `ENC` (R117). -/
def execEnc (s : State) : Host.Outcome State Fault Refusal := encWith blockCipher s

end Sys2Proof.Machine
end

