-- ==== Sys2Proof/Machine/Dispatch.lean ====
section
/-!
DEFINITION. One arm per command, each a direct call of its meaning (spec/30_encoding.md R62, R63).
-/

namespace Sys2Proof.Machine

/-- The command a legal word names (R62). -/
def exec (i : Instr) (s : State) : Host.Outcome State Fault Refusal :=
  match i with
  | .rdle16 => Sys2Proof.Machine.execRdle16 s
  | .rdle32 => Sys2Proof.Machine.execRdle32 s
  | .rdbe32 => Sys2Proof.Machine.execRdbe32 s
  | .wrle16 => Sys2Proof.Machine.execWrle16 s
  | .wrle32 => Sys2Proof.Machine.execWrle32 s
  | .wrbe32 => Sys2Proof.Machine.execWrbe32 s
  | .crc16 => Sys2Proof.Machine.execCrc16 s
  | .build => Sys2Proof.Machine.execBuild s
  | .micapp => Sys2Proof.Machine.execMicapp s
  | .micver => Sys2Proof.Machine.execMicver s
  | .mic0app => Sys2Proof.Machine.execMic0app s
  | .mic0ver => Sys2Proof.Machine.execMic0ver s
  | .cipher => Sys2Proof.Machine.execCipher s
  | .enc => Sys2Proof.Machine.execEnc s

end Sys2Proof.Machine
end

