-- ==== Sys2Proof/Machine/Port.lean ====
section
/-!
DEFINITION. The host port: the four transactions (spec/20_memory.md R40 to R43), a write to `CMD`
(spec/30_encoding.md R62), and reset (spec/70_reset_and_hazards.md R160).
-/

namespace Sys2Proof.Machine

/-- A command word written to `CMD`: the command it names, or `ERR_OPCODE` (R62, R65). -/
def runWord (w : Word) (s : State) : Host.Outcome State Fault Refusal :=
  match decode w with
  | .ok i => exec i s
  | .error _ => .next (raiseErr .opcode s)

/-- `RegWrite` to a register other than `CMD`: a narrower register keeps the low bits (R23); `STATUS`
clears `ERRS` on `d[1]` (R16); `CRCR`, `AUX` and the reserved numbers take no effect (R24, R40). `CMD`
stores nothing (R10). -/
def storeReg (r : Reg) (d : Word) (s : State) : State :=
  match r with
  | .cmd => s
  | .status => s.setStatus (statusWrite d s.status)
  | .off => { s with off := d.extractLsb' 0 16 }
  | .len => { s with len := d.extractLsb' 0 16 }
  | .val => s.setVal d
  | .crcr => s
  | .addr => { s with addr := d }
  | .cnt => { s with cnt := d }
  | .dir => { s with dir := d.extractLsb' 0 1 }
  | .disc => { s with disc := d.extractLsb' 0 8 }
  | .trail => { s with trail := d.extractLsb' 0 8 }
  | .key k => { s with key := s.key.set k.val (d.extractLsb' 0 8) }
  | .aux _ => s
  | .reserved _ => s

/-- `RegWrite(n, d)` (R40). -/
def regWrite (n : BitVec 6) (d : Word) (s : State) : Host.Outcome State Fault Refusal :=
  match regOf n with
  | .cmd => runWord d s
  | r => .next (storeReg r d s)

/-- What `RegRead` returns: the stored value zero-extended (R23, R41); 0 for `CMD`, for the write-only key
and for reserved numbers (R15, R17, R24). -/
def loadReg (r : Reg) (s : State) : Word :=
  match r with
  | .cmd => 0
  | .status => statusWord s.status
  | .off => s.off.setWidth 32
  | .len => s.len.setWidth 32
  | .val => s.val
  | .crcr => s.crcr.setWidth 32
  | .addr => s.addr
  | .cnt => s.cnt
  | .dir => s.dir.setWidth 32
  | .disc => s.disc.setWidth 32
  | .trail => s.trail.setWidth 32
  | .key _ => 0
  | .aux k => (s.aux.get k.val).setWidth 32
  | .reserved _ => 0

/-- `RegRead(n)`: the answer, and no other change (R41). -/
def regRead (n : BitVec 6) (s : State) : State := s.setReply (.word (loadReg (regOf n) s))

/-- `BufWrite(a, b)`: no effect at or above `BUFSZ` (R42). -/
def bufWrite (a : Nat) (b : Byte) (s : State) : State :=
  if a < s.cfg.bufsz then memWrite a [b] s else s

/-- `BufRead(a)`: 0 at or above `BUFSZ`; no other change (R43). -/
def bufRead (a : Nat) (s : State) : State :=
  s.setReply (.byte (if a < s.cfg.bufsz then readByte s a else 0))

/-- Reset (R22, R160): every register zero, `BUF` unspecified. The parameters and what is still to come
stay; the free bytes of `BUF` are those of a new reset (log 1). -/
def applyReset (s : State) : State :=
  { State.reset with cfg := s.cfg, resets := s.resets + 1, inputs := s.inputs }

/-- One transaction, whole (R52). -/
def transact (t : Transaction) (s : State) : Host.Outcome State Fault Refusal :=
  match t with
  | .regWrite n d => regWrite n d s
  | .regRead n => .next (regRead n s)
  | .bufWrite a b => .next (bufWrite a b s)
  | .bufRead a => .next (bufRead a s)

/-- One input: a transaction completes on the port (a write with no data), or the platform resets the
CORE. -/
def perform (x : Input) (s : State) : Host.Outcome State Fault Refusal :=
  match x with
  | .host t => transact t (s.setReply .done)
  | .reset => .next (applyReset s)

/-- Taking the oldest pending input; with none pending the CORE waits, unchanged (R13). -/
def stepInput (s : State) : Host.Outcome State Fault Refusal :=
  match s.inputs with
  | [] => .next s
  | x :: rest => perform x (s.setInputs rest)

end Sys2Proof.Machine
end

