-- ==== Sys2Proof/Machine/Step.lean ====
section
/-!
DEFINITION. One step of the CORE: it performs the oldest pending input (spec/10_state.md R13;
spec/20_memory.md R52). The CORE fetches nothing (R55): a command reaches it as a write to `CMD`.
-/

namespace Sys2Proof.Machine

/-- One step. -/
def step (s : State) : Host.Outcome State Fault Refusal := stepInput s

/-- The state in which the next input is a write of this command word to `CMD` (R15, R62; log 2). Nothing
else changes. -/
def State.withFetchWord (s : State) (nbits w : Nat) : State :=
  s.setInputs (.host (.regWrite 0 (BitVec.ofNat 32 (tableWord nbits w))) :: s.inputs)

end Sys2Proof.Machine
end

