-- ==== Sys2Proof/Machine/Script.lean ====
section
/-!
DEFINITION. The text notation for transaction sequences and its pseudo-instructions
(spec/30_encoding.md R70, R71). None does anything a plain transaction sequence cannot.
-/

namespace Sys2Proof.Machine

/-- `wr REG, value` (R70). -/
def wr (r : Reg) (v : Word) : Input := .host (.regWrite (numberOf r) v)

/-- `rd REG` (R70). -/
def rd (r : Reg) : Input := .host (.regRead (numberOf r))

/-- `wb addr, byte` (R70). -/
def wb (a : Nat) (b : Byte) : Input := .host (.bufWrite a b)

/-- `rb addr` (R70). -/
def rb (a : Nat) : Input := .host (.bufRead a)

/-- `cmd MNEMONIC` (R70): the command word written to `CMD`. -/
def cmd (i : Instr) : Input := wr .cmd (encode i)

/-- `ldkey` (R71): the sixteen key bytes, `KEY0` first. -/
def ldkey (k : Block) : List Input :=
  (List.range 16).map fun j => wr (.key (Fin.ofNat 16 j)) ((k.get j).setWidth 32)

/-- `ldbuf addr, b0 b1 ...` (R71). -/
def ldbuf (a : Nat) : List Byte → List Input
  | [] => []
  | b :: x => wb a b :: ldbuf (a + 1) x

/-- `rdbuf addr, n` (R71). -/
def rdbuf (a n : Nat) : List Input := (List.range n).map fun j => rb (a + j)

/-- `rdaux` (R71). -/
def rdaux : List Input := (List.range 16).map fun j => rd (.aux (Fin.ofNat 16 j))

/-- `clrerr` (R71). -/
def clrerr : List Input := [wr .status 2]

end Sys2Proof.Machine
end

