-- ==== Sys2Proof/Safety.lean ====
section
/-!
DEFINITION. What counts as a good state and what statements say of two states.
-/

namespace Sys2Proof.Machine

/-- The invariant of every reachable state: `BUFSZ` within its limits (R6); the buffer in canonical form
(DESIGN CHOICE, log 1) with no byte outside `BUF[0..BUFSZ)` (R19, R44); `MATCH` set only by a command that ended without error
(R16). -/
structure State.Inv (s : State) : Prop where
  /-- 16 <= `BUFSZ` <= 65536. -/
  cfg_wf : s.cfg.wf = true
  /-- Addresses strictly rising: the model's own form of the buffer (DESIGN CHOICE, log 1). -/
  buf_wf : s.buf.wf
  /-- No cell at or above `BUFSZ`. -/
  buf_below : s.buf.below s.cfg.bufsz
  /-- `MATCH` = 1 only with `ERR` = 0. -/
  match_no_error : s.status.matched = true → s.status.err = none

/-- Every byte outside `[a, a + n)` reads the same in both states. -/
def SameOutside (a n : Nat) (s t : State) : Prop :=
  ∀ x, x < a ∨ a + n ≤ x → readByte t x = readByte s x

/-- The two states agree in everything but the buffer. -/
def SameButBuf (s t : State) : Prop := { t with buf := s.buf } = s

/-- The commands that call the block cipher (R17). -/
def callsCipher : Instr → Bool
  | .rdle16 => false
  | .rdle32 => false
  | .rdbe32 => false
  | .wrle16 => false
  | .wrle32 => false
  | .wrbe32 => false
  | .crc16 => false
  | .build => false
  | .micapp => true
  | .micver => true
  | .mic0app => true
  | .mic0ver => true
  | .cipher => true
  | .enc => true

end Sys2Proof.Machine
end

