-- ==== Sys2Proof/Certificates/Slice0/Obligations.lean ====
section
/-!
DEFINITION. The statements for the provers. Each docstring names the rule of spec/ it comes from. `With`
statements hold for every block cipher `E` (spec/45_block_cipher.md R125).
-/

open Sys2Proof Sys2Proof.Machine

/-! ## Encoding -/

/-- R60 to R63, R65: a command's word decodes to it, and it is the only word that does. -/
def Obligations.DecodeAndEncodeAgree : Prop :=
  (∀ i : Instr, decode (encode i) = .ok i) ∧ ∀ (w : Word) (i : Instr), decode w = .ok i → w = encode i

/-- R60, R61, R63: words of each unit written out field by field (zero, unit, fn), and three that are
illegal. -/
def Obligations.WrittenOutWordsDecode : Prop :=
  decode (0b000000000000000000000000_0000_0001 : Word) = .ok .rdle16 ∧
    decode (0b000000000000000000000000_0000_0111 : Word) = .ok .wrbe32 ∧
    decode (0b000000000000000000000000_0001_0000 : Word) = .ok .crc16 ∧
    decode (0b000000000000000000000000_0010_0000 : Word) = .ok .build ∧
    decode (0b000000000000000000000000_0011_0010 : Word) = .ok .mic0app ∧
    decode (0b000000000000000000000000_0100_0001 : Word) = .ok .enc ∧
    decode (0b000000000000000000000000_0000_0100 : Word) = .error .reservedOpcode ∧
    decode (0b000000000000000000000000_0011_0100 : Word) = .error .reservedOpcode ∧
    decode (0b000000000000000000000001_0001_0000 : Word) = .error .upperBitsSet

/-- R65: a word that is none of the fourteen changes only `STATUS`, with `ERR` = 1, `ERRS` = 1,
`MATCH` = 0. -/
def Obligations.IllegalWordReportsErrOpcode : Prop :=
  ∀ (w : Word) (s : State), (∀ i : Instr, w ≠ encode i) →
    runWord w s = .next { s with status := { matched := false, errs := true, err := some .opcode } } ∧
      statusWord { matched := false, errs := true, err := some .opcode } = 0x12

/-! ## The step and the port -/

/-- A write of a command's word to `CMD` is the command (R15, R62): the step is `exec` of the decoded
command on the state from which the input has been taken and to which the port has answered. The two fields
`inputs` and `reply` are the model's (log 2). -/
def Obligations.StepRunsTheDecodedCommand : Prop :=
  ∀ (s : State) (w : Word) (i : Instr) (rest : List Input),
    s.inputs = .host (.regWrite 0 w) :: rest → decode w = .ok i →
      step s = exec i { s with inputs := rest, reply := .done }

/-- Each step answers a next state, and takes exactly the oldest input (R52, R148, R177). With none pending
the CORE waits unchanged (R13). The list of inputs is the model's (log 2). -/
def Obligations.EveryStepAnswersAndTakesTheOldestInput : Prop :=
  ∀ s : State, ∃ t, step s = .next t ∧ t.inputs = s.inputs.tail ∧ (s.inputs = [] → t = s)

/-- R21: no step changes the parameters. That they stand in the state is the model's choice (log 3). -/
def Obligations.StepNeverChangesTheParameters : Prop :=
  ∀ s t : State, step s = .next t → t.cfg = s.cfg

/-- The invariant holds at reset (R22). The default `BUFSZ` (log 3) and the canonical form of the buffer
(log 1) are the model's choices. -/
def Obligations.ResetStateSatisfiesTheInvariant : Prop := State.reset.Inv

/-- Every step keeps the invariant: `BUFSZ` in its limits (R6), no byte of the buffer outside `BUFSZ` (R19,
R44), `MATCH` only with `ERR` = 0 (R16). Its clause `buf_wf`, the canonical form of the buffer, is no rule of
the spec: it is the model's choice (log 1), and so is the form of the clause `buf_below` (log 1). That `BUFSZ`
stands in the state is the model's choice too (log 3). -/
def Obligations.EveryStepKeepsTheInvariant : Prop :=
  ∀ s t : State, s.Inv → step s = .next t → t.Inv

/-- R22: the values after reset. That a byte nothing has written reads as the free byte is the model's form
of "unspecified" (log 1). -/
def Obligations.ResetStateValues : Prop :=
  State.reset.off = 0 ∧ State.reset.len = 0 ∧ State.reset.val = 0 ∧ State.reset.crcr = 0 ∧
    State.reset.addr = 0 ∧ State.reset.cnt = 0 ∧ State.reset.dir = 0 ∧ State.reset.disc = 0 ∧
    State.reset.trail = 0 ∧ statusWord State.reset.status = 0 ∧
    (∀ k, k < 16 → State.reset.key.get k = 0 ∧ State.reset.aux.get k = 0) ∧
    ∀ a, readByte State.reset a = Config.powerUpByte State.reset.resets a

/-- Reset at any time (R160): every register as R22 says, nothing written in `BUF`, the parameters and the
inputs still to come kept. The bytes of `BUF` are those of a reset with a new index (log 1, log 7). -/
def Obligations.ResetInputClearsEveryRegister : Prop :=
  ∀ (s : State) (rest : List Input), s.inputs = .reset :: rest →
    ∃ t, step s = .next t ∧ t.off = 0 ∧ t.len = 0 ∧ t.val = 0 ∧ t.crcr = 0 ∧ t.addr = 0 ∧ t.cnt = 0 ∧
      t.dir = 0 ∧ t.disc = 0 ∧ t.trail = 0 ∧ statusWord t.status = 0 ∧
      (∀ k, k < 16 → t.key.get k = 0 ∧ t.aux.get k = 0) ∧
      (∀ a, readByte t a = Config.powerUpByte (s.resets + 1) a) ∧ t.cfg = s.cfg ∧ t.inputs = rest

/-- R11: the number of a register names it and no other. -/
def Obligations.RegisterNumbersNameOneRegisterEach : Prop :=
  (∀ n : BitVec 6, numberOf (regOf n) = n) ∧
    (∀ n : BitVec 6, (∃ k, regOf n = .key k) ↔ 0x10 ≤ n.toNat ∧ n.toNat ≤ 0x1F) ∧
    (∀ n : BitVec 6, (∃ k, regOf n = .aux k) ↔ 0x20 ≤ n.toNat ∧ n.toNat ≤ 0x2F) ∧
    ∀ n : BitVec 6, (∃ m, regOf n = .reserved m) ↔
      (0x0B ≤ n.toNat ∧ n.toNat ≤ 0x0F) ∨ 0x30 ≤ n.toNat

/-- R23: a write to an operand register of width `w` stores `d[w-1:0]` and changes nothing else, and a read
gives the stored value zero-extended. -/
def Obligations.OperandRegisterKeepsLowBitsAndReadsZeroExtended : Prop :=
  ∀ (s : State) (d : Word),
    (∃ t, regWrite 0x02 d s = .next t ∧ t = { s with off := t.off } ∧
      t.off.toNat = d.toNat % 2 ^ 16 ∧ (loadReg (regOf 0x02) t).toNat = d.toNat % 2 ^ 16) ∧
    (∃ t, regWrite 0x03 d s = .next t ∧ t = { s with len := t.len } ∧
      t.len.toNat = d.toNat % 2 ^ 16 ∧ (loadReg (regOf 0x03) t).toNat = d.toNat % 2 ^ 16) ∧
    (∃ t, regWrite 0x04 d s = .next t ∧ t = { s with val := d } ∧ loadReg (regOf 0x04) t = d) ∧
    (∃ t, regWrite 0x06 d s = .next t ∧ t = { s with addr := d } ∧ loadReg (regOf 0x06) t = d) ∧
    (∃ t, regWrite 0x07 d s = .next t ∧ t = { s with cnt := d } ∧ loadReg (regOf 0x07) t = d) ∧
    (∃ t, regWrite 0x08 d s = .next t ∧ t = { s with dir := t.dir } ∧
      t.dir.toNat = d.toNat % 2 ∧ (loadReg (regOf 0x08) t).toNat = d.toNat % 2) ∧
    (∃ t, regWrite 0x09 d s = .next t ∧ t = { s with disc := t.disc } ∧
      t.disc.toNat = d.toNat % 2 ^ 8 ∧ (loadReg (regOf 0x09) t).toNat = d.toNat % 2 ^ 8) ∧
    (∃ t, regWrite 0x0A d s = .next t ∧ t = { s with trail := t.trail } ∧
      t.trail.toNat = d.toNat % 2 ^ 8 ∧ (loadReg (regOf 0x0A) t).toNat = d.toNat % 2 ^ 8) ∧
    (∀ k : Fin 16, ∃ t, regWrite (0x10 + BitVec.ofNat 6 k.val) d s = .next t ∧
      t = { s with key := t.key } ∧ (t.key.get k.val).toNat = d.toNat % 2 ^ 8 ∧
      (∀ j, j < 16 → j ≠ k.val → t.key.get j = s.key.get j) ∧
      loadReg (regOf (0x10 + BitVec.ofNat 6 k.val)) t = 0) ∧
    loadReg (regOf 0x05) s = s.crcr.setWidth 32 ∧
    ∀ k : Fin 16, loadReg (regOf (0x20 + BitVec.ofNat 6 k.val)) s = (s.aux.get k.val).setWidth 32

/-- R24: a reserved register number reads 0, and a write to it has no effect at all. -/
def Obligations.ReservedRegisterReadsZeroAndIgnoresWrites : Prop :=
  ∀ (n : BitVec 6), (0x0B ≤ n.toNat ∧ n.toNat ≤ 0x0F) ∨ 0x30 ≤ n.toNat →
    ∀ (d : Word) (s : State), regWrite n d s = .next s ∧ loadReg (regOf n) s = 0

/-- R40: a write to `CRCR` or to an `AUX` register has no effect. -/
def Obligations.ReadOnlyRegisterIgnoresWrites : Prop :=
  ∀ (n : BitVec 6), n.toNat = 0x05 ∨ (0x20 ≤ n.toNat ∧ n.toNat ≤ 0x2F) →
    ∀ (d : Word) (s : State), regWrite n d s = .next s

/-- R16: the fields of `STATUS` as read, every other bit 0. -/
def Obligations.StatusReadsItsThreeFields : Prop :=
  ∀ s : State,
    (loadReg (regOf 0x01) s).getLsbD 0 = s.status.matched ∧
      (loadReg (regOf 0x01) s).getLsbD 1 = s.status.errs ∧
      ((loadReg (regOf 0x01) s).toNat / 16 =
        match s.status.err with
        | none => 0
        | some .opcode => 1
        | some .len => 2
        | some .range => 3) ∧
      (loadReg (regOf 0x01) s).getLsbD 2 = false ∧ (loadReg (regOf 0x01) s).getLsbD 3 = false

/-- R16: a write to `STATUS` clears `ERRS` if `d[1]` = 1, and changes nothing else. -/
def Obligations.StatusWriteClearsOnlyTheStickyFlag : Prop :=
  ∀ (s : State) (d : Word),
    regWrite 0x01 d s =
      .next { s with
        status :=
          { matched := s.status.matched
            errs := s.status.errs && !d.getLsbD 1
            err := s.status.err } }

/-- R40: a write to a register other than `CMD` changes no byte of `BUF`, not `AUX`, `CRCR`, `MATCH` or
`ERR`, and not `VAL` unless it is to `VAL`. -/
def Obligations.WriteToOtherThanCmdFrame : Prop :=
  ∀ (n : BitVec 6) (d : Word) (s : State), n ≠ 0 →
    ∃ t, regWrite n d s = .next t ∧ (∀ a, readByte t a = readByte s a) ∧ t.aux = s.aux ∧
      t.crcr = s.crcr ∧ t.status.matched = s.status.matched ∧ t.status.err = s.status.err ∧
      (n ≠ 0x04 → t.val = s.val)

/-- R41: a register read answers the register's value, 0 for `CMD` and for the key, and changes no state.
The answer stands in the model's field `reply` (log 2). -/
def Obligations.RegisterReadChangesNoState : Prop :=
  ∀ (s : State) (n : BitVec 6) (rest : List Input), s.inputs = .host (.regRead n) :: rest →
    (step s = .next { s with inputs := rest, reply := .word (loadReg (regOf n) s) }) ∧
      (n = 0 ∨ (0x10 ≤ n.toNat ∧ n.toNat ≤ 0x1F) → loadReg (regOf n) s = 0)

/-- R42: a host write to `BUF` below `BUFSZ` stores the byte and changes nothing else; at or above `BUFSZ` it
has no effect. -/
def Obligations.BufWriteStoresOneByteOrNothing : Prop :=
  ∀ (s : State) (a : Nat) (b : Byte),
    (a < s.cfg.bufsz → ∃ t, transact (.bufWrite a b) s = .next t ∧ SameButBuf s t ∧ readByte t a = b ∧
      SameOutside a 1 s t) ∧
    (s.cfg.bufsz ≤ a → transact (.bufWrite a b) s = .next s)

/-- R43: a host read of `BUF` answers the byte, 0 at or above `BUFSZ`, and changes no state. The answer
stands in the model's field `reply` (log 2). -/
def Obligations.BufReadAnswersTheByteOrZero : Prop :=
  ∀ (s : State) (a : Nat) (rest : List Input), s.inputs = .host (.bufRead a) :: rest →
    (a < s.cfg.bufsz → step s = .next { s with inputs := rest, reply := .byte (readByte s a) }) ∧
      (s.cfg.bufsz ≤ a → step s = .next { s with inputs := rest, reply := .byte 0 })

/-- R71: `ldkey` leaves the sixteen bytes in `KEY` and changes nothing else, whatever follows it. -/
def Obligations.LdkeyLoadsTheKey : Prop :=
  ∀ (s : State) (k : Block) (rest : List Input),
    Host.Core.run Sys2Proof.core 16 { s with inputs := ldkey k ++ rest } =
      .next { s with key := k, inputs := rest, reply := .done }

/-- R71: `ldbuf` leaves the bytes in `BUF` from its address up, in order, and changes no other byte. -/
def Obligations.LdbufWritesTheBytes : Prop :=
  ∀ (s : State) (a : Nat) (x : List Byte) (rest : List Input), a + x.length ≤ s.cfg.bufsz → x ≠ [] →
    ∃ t : State,
      Host.Core.run Sys2Proof.core x.length { s with inputs := ldbuf a x ++ rest } = .next t ∧
        SameButBuf { s with inputs := rest, reply := .done } t ∧
        (∀ k, (h : k < x.length) → readByte t (a + k) = x[k]) ∧ SameOutside a x.length s t

/-! ## Byte codec -/

/-- R81: the word that runs it, the value read, and the error; only `VAL` and `STATUS` change. -/
def Obligations.Rdle16ReadsLittleEndian : Prop :=
  decode (0x00000001 : Word) = .ok .rdle16 ∧ ∀ s : State,
    (s.off.toNat + 2 ≤ s.cfg.bufsz →
      ∃ v : Word,
        exec .rdle16 s =
          .next { s with
            val := v
            status := { matched := false, errs := s.status.errs, err := none } } ∧
        v.toNat = (readByte s s.off.toNat).toNat + 256 * (readByte s (s.off.toNat + 1)).toNat) ∧
    (s.cfg.bufsz < s.off.toNat + 2 →
      exec .rdle16 s =
        .next { s with status := { matched := false, errs := true, err := some .range } })

/-- R82: the word that runs it, the value read, and the error; only `VAL` and `STATUS` change. -/
def Obligations.Rdle32ReadsLittleEndian : Prop :=
  decode (0x00000002 : Word) = .ok .rdle32 ∧ ∀ s : State,
    (s.off.toNat + 4 ≤ s.cfg.bufsz →
      ∃ v : Word,
        exec .rdle32 s =
          .next { s with
            val := v
            status := { matched := false, errs := s.status.errs, err := none } } ∧
        v.toNat =
          (readByte s s.off.toNat).toNat + 2 ^ 8 * (readByte s (s.off.toNat + 1)).toNat +
            2 ^ 16 * (readByte s (s.off.toNat + 2)).toNat +
            2 ^ 24 * (readByte s (s.off.toNat + 3)).toNat) ∧
    (s.cfg.bufsz < s.off.toNat + 4 →
      exec .rdle32 s =
        .next { s with status := { matched := false, errs := true, err := some .range } })

/-- R83: the word that runs it, the value read, and the error; only `VAL` and `STATUS` change. -/
def Obligations.Rdbe32ReadsBigEndian : Prop :=
  decode (0x00000003 : Word) = .ok .rdbe32 ∧ ∀ s : State,
    (s.off.toNat + 4 ≤ s.cfg.bufsz →
      ∃ v : Word,
        exec .rdbe32 s =
          .next { s with
            val := v
            status := { matched := false, errs := s.status.errs, err := none } } ∧
        v.toNat =
          2 ^ 24 * (readByte s s.off.toNat).toNat + 2 ^ 16 * (readByte s (s.off.toNat + 1)).toNat +
            2 ^ 8 * (readByte s (s.off.toNat + 2)).toNat + (readByte s (s.off.toNat + 3)).toNat) ∧
    (s.cfg.bufsz < s.off.toNat + 4 →
      exec .rdbe32 s =
        .next { s with status := { matched := false, errs := true, err := some .range } })

/-- R84: two bytes of `VAL[15:0]`, the rest of the buffer untouched, no register but `STATUS` changed. -/
def Obligations.Wrle16WritesTwoBytes : Prop :=
  decode (0x00000005 : Word) = .ok .wrle16 ∧ ∀ s : State,
    (s.off.toNat + 2 ≤ s.cfg.bufsz →
      ∃ t, exec .wrle16 s = .next t ∧
        SameButBuf { s with status := { matched := false, errs := s.status.errs, err := none } } t ∧
        readByte t s.off.toNat = s.val.extractLsb' 0 8 ∧
        readByte t (s.off.toNat + 1) = s.val.extractLsb' 8 8 ∧ SameOutside s.off.toNat 2 s t) ∧
    (s.cfg.bufsz < s.off.toNat + 2 →
      exec .wrle16 s =
        .next { s with status := { matched := false, errs := true, err := some .range } })

/-- R85: four bytes of `VAL`, least significant first; no other byte, no register but `STATUS` changed. -/
def Obligations.Wrle32WritesFourBytes : Prop :=
  decode (0x00000006 : Word) = .ok .wrle32 ∧ ∀ s : State,
    (s.off.toNat + 4 ≤ s.cfg.bufsz →
      ∃ t, exec .wrle32 s = .next t ∧
        SameButBuf { s with status := { matched := false, errs := s.status.errs, err := none } } t ∧
        (∀ k, k < 4 → readByte t (s.off.toNat + k) = s.val.extractLsb' (8 * k) 8) ∧
        SameOutside s.off.toNat 4 s t) ∧
    (s.cfg.bufsz < s.off.toNat + 4 →
      exec .wrle32 s =
        .next { s with status := { matched := false, errs := true, err := some .range } })

/-- R86: four bytes of `VAL`, most significant first; no other byte, no register but `STATUS` changed. -/
def Obligations.Wrbe32WritesFourBytes : Prop :=
  decode (0x00000007 : Word) = .ok .wrbe32 ∧ ∀ s : State,
    (s.off.toNat + 4 ≤ s.cfg.bufsz →
      ∃ t, exec .wrbe32 s = .next t ∧
        SameButBuf { s with status := { matched := false, errs := s.status.errs, err := none } } t ∧
        (∀ k, k < 4 → readByte t (s.off.toNat + k) = s.val.extractLsb' (8 * (3 - k)) 8) ∧
        SameOutside s.off.toNat 4 s t) ∧
    (s.cfg.bufsz < s.off.toNat + 4 →
      exec .wrbe32 s =
        .next { s with status := { matched := false, errs := true, err := some .range } })

/-- R87: a write followed by the matching read returns the value (its low half for 16 bits), and `RDBE32`
after `WRLE32` returns it byte-reversed (R46), for every `OFF` with the footprint in range: two bytes for the
16-bit pair, four for the others. -/
def Obligations.CodecWriteThenReadRoundTrips : Prop :=
  ∀ s : State,
    (s.off.toNat + 2 ≤ s.cfg.bufsz →
      ∃ t u, exec .wrle16 s = .next t ∧ exec .rdle16 t = .next u ∧
        u.val = (s.val.extractLsb' 0 16).setWidth 32) ∧
    (s.off.toNat + 4 ≤ s.cfg.bufsz →
      (∃ t u, exec .wrle32 s = .next t ∧ exec .rdle32 t = .next u ∧ u.val = s.val) ∧
      (∃ t u, exec .wrbe32 s = .next t ∧ exec .rdbe32 t = .next u ∧ u.val = s.val) ∧
      ∃ t u, exec .wrle32 s = .next t ∧ exec .rdbe32 t = .next u ∧
        u.val = s.val.extractLsb' 0 8 ++ s.val.extractLsb' 8 8 ++ s.val.extractLsb' 16 8 ++
          s.val.extractLsb' 24 8)

/-- R87: a read followed by the matching write leaves every byte of the buffer as it was, for every `OFF`
with the footprint in range: two bytes for the 16-bit pair, four for the others. -/
def Obligations.CodecReadThenWriteKeepsTheBuffer : Prop :=
  ∀ s : State,
    (s.off.toNat + 2 ≤ s.cfg.bufsz →
      ∃ t u, exec .rdle16 s = .next t ∧ exec .wrle16 t = .next u ∧
        ∀ a, readByte u a = readByte s a) ∧
    (s.off.toNat + 4 ≤ s.cfg.bufsz →
      (∃ t u, exec .rdle32 s = .next t ∧ exec .wrle32 t = .next u ∧
        ∀ a, readByte u a = readByte s a) ∧
      ∃ t u, exec .rdbe32 s = .next t ∧ exec .wrbe32 t = .next u ∧
        ∀ a, readByte u a = readByte s a)

/-! ## CRC-16 -/

/-- R90: `CRCR` is the checksum of the `LEN` bytes from `OFF` in order; nothing else changes but `STATUS`.
The checksum starts from 0 whatever `CRCR` held. `Crc16FollowsTheRecurrence` says what it is. -/
def Obligations.Crc16ChecksumsTheRange : Prop :=
  decode (0x00000010 : Word) = .ok .crc16 ∧ ∀ s : State,
    (s.off.toNat + s.len.toNat ≤ s.cfg.bufsz →
      exec .crc16 s =
        .next { s with
          crcr := crc16 ((List.range s.len.toNat).map fun k => readByte s (s.off.toNat + k))
          status := { matched := false, errs := s.status.errs, err := none } }) ∧
    (s.cfg.bufsz < s.off.toNat + s.len.toNat →
      exec .crc16 s =
        .next { s with status := { matched := false, errs := true, err := some .range } })

/-- R91, with nothing of the model in it but `crc16`: the empty string has checksum 0, and one more byte is
XORed into bits 15:8 and followed by eight rounds, each a left shift, with 0x1021 XORed in if the top bit was
1 before the shift. The function `round` is given at every value, so `crc16` is fixed on every string. -/
def Obligations.Crc16FollowsTheRecurrence : Prop :=
  crc16 [] = 0x0000#16 ∧
    ∃ round : BitVec 16 → BitVec 16,
      (∀ acc, round acc = if acc.getLsbD 15 = true then (acc <<< 1) ^^^ 0x1021#16 else acc <<< 1) ∧
      ∀ (x : List Byte) (b : Byte),
        crc16 (x ++ [b]) =
          round (round (round (round (round (round (round (round
            (crc16 x ^^^ (b.setWidth 16 <<< 8)))))))))

/-- R93 (d): the checksum is linear over XOR for equal lengths. -/
def Obligations.Crc16IsLinearOverXor : Prop :=
  ∀ x y : List Byte, x.length = y.length →
    crc16 (List.zipWith (· ^^^ ·) x y) = crc16 x ^^^ crc16 y

/-- R93 (a), (b), (c): leading zero bytes do not change the checksum; a string of zeros, of any length, has
checksum 0. -/
def Obligations.Crc16IgnoresLeadingZeros : Prop :=
  ∀ (n : Nat) (x : List Byte),
    crc16 (List.replicate n 0 ++ x) = crc16 x ∧ crc16 (List.replicate n 0) = 0

/-- R93 (f): appending the checksum, high byte first, gives checksum 0. -/
def Obligations.Crc16OfStringWithItsChecksumIsZero : Prop :=
  ∀ x : List Byte, crc16 (x ++ [(crc16 x).extractLsb' 8 8, (crc16 x).extractLsb' 0 8]) = 0

/-! ## Block constructor -/

/-- R95: the layout of an AuthBlock, byte by byte; byte 5 holds the direction for every discriminator
(conflict C3). -/
def Obligations.AuthBlockLayout : Prop :=
  ∀ (disc : Byte) (dir : BitVec 1) (addr cnt : Word) (trail : Byte),
    (authBlock disc dir addr cnt trail).bytes =
      [disc, 0, 0, 0, 0, dir.setWidth 8, addr.extractLsb' 0 8, addr.extractLsb' 8 8,
        addr.extractLsb' 16 8, addr.extractLsb' 24 8, cnt.extractLsb' 0 8, cnt.extractLsb' 8 8,
        cnt.extractLsb' 16 8, cnt.extractLsb' 24 8, 0, trail]

/-- R96: `BUILD` always succeeds; it writes `AUX` and `STATUS` and nothing else. -/
def Obligations.BuildWritesTheBlockAndAlwaysSucceeds : Prop :=
  decode (0x00000020 : Word) = .ok .build ∧ ∀ s : State,
    exec .build s =
      .next { s with
        aux := authBlock s.disc s.dir s.addr s.cnt s.trail
        status := { matched := false, errs := s.status.errs, err := none } }

/-! ## MIC engine -/

/-- R100, with `^` bytewise (00_scope.md section 6.1): a message of one chunk is padded with zero bytes to
sixteen and goes through `E` once; a longer one chains through its first sixteen bytes and continues. With
the three clauses the value of `mac` is fixed for every message of at least one byte. -/
def Obligations.MacIsTheZeroPaddedChain : Prop :=
  (∀ (x y : Block) (j : Nat), j < 16 → (xorBlock x y).get j = x.get j ^^^ y.get j) ∧
  ∀ (E : Block → Block → Block) (k c0 p : Block) (m : List Byte), m ≠ [] →
    (∀ z, p.bytes = m ++ List.replicate z 0 → mac E k c0 m = E k (xorBlock c0 p)) ∧
      mac E k c0 (p.bytes ++ m) = mac E k (E k (xorBlock c0 p)) m

/-- R101: the data-frame MIC is the join-frame construction applied to B0 followed by the message. -/
def Obligations.DataFrameMacIsTheJoinFrameMacOfB0AndMessage : Prop :=
  ∀ (E : Block → Block → Block) (k b0 : Block) (m : List Byte), m ≠ [] →
    mac E k Block.zero (b0.bytes ++ m) = mac E k (E k b0) m

/-- R104: zero bytes appended to a message without adding a chunk do not change the chaining value. -/
def Obligations.ZeroBytesInTheLastChunkDoNotChangeTheMac : Prop :=
  ∀ (E : Block → Block → Block) (k c0 : Block) (m : List Byte) (z : Nat), m ≠ [] →
    (m.length + z + 15) / 16 = (m.length + 15) / 16 →
      mac E k c0 (m ++ List.replicate z 0) = mac E k c0 m

/-- R63, R102, R106, R107: the word that runs it; `AUX` becomes B0, the four bytes after the message become
the first four of the final chaining value, no other byte and no other register changes but `STATUS`; a bad
length is reported before a bad range. How often `E` is called is timing (log 6). -/
def Obligations.MicappAppendsTheTag : Prop :=
  decode (0x00000030 : Word) = .ok .micapp ∧ ∀ s : State,
    (1 ≤ s.len.toNat → s.len.toNat ≤ 255 → s.off.toNat + s.len.toNat + 4 ≤ s.cfg.bufsz →
      ∃ t, exec .micapp s = .next t ∧
        SameButBuf
          { s with
            aux := authBlock 0x49 s.dir s.addr s.cnt (s.len.extractLsb' 0 8)
            status := { matched := false, errs := s.status.errs, err := none } } t ∧
        (∀ k, k < 4 → readByte t (s.off.toNat + s.len.toNat + k) =
          (mac blockCipher s.key (blockCipher s.key t.aux)
            ((List.range s.len.toNat).map fun j => readByte s (s.off.toNat + j))).get k) ∧
        SameOutside (s.off.toNat + s.len.toNat) 4 s t) ∧
    (s.len.toNat = 0 ∨ 255 < s.len.toNat →
      exec .micapp s =
        .next { s with status := { matched := false, errs := true, err := some .len } }) ∧
    (1 ≤ s.len.toNat → s.len.toNat ≤ 255 → s.cfg.bufsz < s.off.toNat + s.len.toNat + 4 →
      exec .micapp s =
        .next { s with status := { matched := false, errs := true, err := some .range } })

/-- R63, R103, R106, R107, R145: the word that runs it; `AUX` becomes B0 and `MATCH` says whether all four
stored bytes equal the recomputed ones; nothing else changes, and a mismatch is no error. -/
def Obligations.MicverComparesTheTag : Prop :=
  decode (0x00000031 : Word) = .ok .micver ∧ ∀ s : State,
    (1 ≤ s.len.toNat → s.len.toNat ≤ 255 → s.off.toNat + s.len.toNat + 4 ≤ s.cfg.bufsz →
      ∃ m : Bool,
        exec .micver s =
          .next { s with
            aux := authBlock 0x49 s.dir s.addr s.cnt (s.len.extractLsb' 0 8)
            status := { matched := m, errs := s.status.errs, err := none } } ∧
        (m = true ↔ ∀ k, k < 4 → readByte s (s.off.toNat + s.len.toNat + k) =
          (mac blockCipher s.key
            (blockCipher s.key (authBlock 0x49 s.dir s.addr s.cnt (s.len.extractLsb' 0 8)))
            ((List.range s.len.toNat).map fun j => readByte s (s.off.toNat + j))).get k)) ∧
    (s.len.toNat = 0 ∨ 255 < s.len.toNat →
      exec .micver s =
        .next { s with status := { matched := false, errs := true, err := some .len } }) ∧
    (1 ≤ s.len.toNat → s.len.toNat ≤ 255 → s.cfg.bufsz < s.off.toNat + s.len.toNat + 4 →
      exec .micver s =
        .next { s with status := { matched := false, errs := true, err := some .range } })

/-- R63, R104, R106, R107: the word that runs it; the tag from a zero initial chaining value; `AUX` is
unchanged. How often `E` is called is timing (log 6). -/
def Obligations.Mic0appAppendsTheTag : Prop :=
  decode (0x00000032 : Word) = .ok .mic0app ∧ ∀ s : State,
    (1 ≤ s.len.toNat → s.len.toNat ≤ 255 → s.off.toNat + s.len.toNat + 4 ≤ s.cfg.bufsz →
      ∃ t, exec .mic0app s = .next t ∧
        SameButBuf { s with status := { matched := false, errs := s.status.errs, err := none } } t ∧
        (∀ k, k < 4 → readByte t (s.off.toNat + s.len.toNat + k) =
          (mac blockCipher s.key Block.zero
            ((List.range s.len.toNat).map fun j => readByte s (s.off.toNat + j))).get k) ∧
        SameOutside (s.off.toNat + s.len.toNat) 4 s t) ∧
    (s.len.toNat = 0 ∨ 255 < s.len.toNat →
      exec .mic0app s =
        .next { s with status := { matched := false, errs := true, err := some .len } }) ∧
    (1 ≤ s.len.toNat → s.len.toNat ≤ 255 → s.cfg.bufsz < s.off.toNat + s.len.toNat + 4 →
      exec .mic0app s =
        .next { s with status := { matched := false, errs := true, err := some .range } })

/-- R63, R105, R106, R107, R145: the word that runs it; only `STATUS` changes, `MATCH` being the comparison
of all four bytes. How often `E` is called is timing (log 6). -/
def Obligations.Mic0verComparesTheTag : Prop :=
  decode (0x00000033 : Word) = .ok .mic0ver ∧ ∀ s : State,
    (1 ≤ s.len.toNat → s.len.toNat ≤ 255 → s.off.toNat + s.len.toNat + 4 ≤ s.cfg.bufsz →
      ∃ m : Bool,
        exec .mic0ver s =
          .next { s with status := { matched := m, errs := s.status.errs, err := none } } ∧
        (m = true ↔ ∀ k, k < 4 → readByte s (s.off.toNat + s.len.toNat + k) =
          (mac blockCipher s.key Block.zero
            ((List.range s.len.toNat).map fun j => readByte s (s.off.toNat + j))).get k)) ∧
    (s.len.toNat = 0 ∨ 255 < s.len.toNat →
      exec .mic0ver s =
        .next { s with status := { matched := false, errs := true, err := some .len } }) ∧
    (1 ≤ s.len.toNat → s.len.toNat ≤ 255 → s.cfg.bufsz < s.off.toNat + s.len.toNat + 4 →
      exec .mic0ver s =
        .next { s with status := { matched := false, errs := true, err := some .range } })

/-- R111 (a): for every `E`, a verify straight after a successful append of the same kind matches. -/
def Obligations.VerifyAfterAppendMatches : Prop :=
  ∀ (E : Block → Block → Block) (s : State), 1 ≤ s.len.toNat → s.len.toNat ≤ 255 →
    s.off.toNat + s.len.toNat + 4 ≤ s.cfg.bufsz →
      (∃ t u, micappWith E s = .next t ∧ micverWith E t = .next u ∧ u.status.matched = true ∧
        u.status.err = none) ∧
      ∃ t u, mic0appWith E s = .next t ∧ mic0verWith E t = .next u ∧ u.status.matched = true ∧
        u.status.err = none

/-- R111 (b): for every `E`, changing any one of the four stored MIC bytes makes the next verify answer no
match, without an error (R145). -/
def Obligations.ChangedMicByteNeverMatches : Prop :=
  ∀ (E : Block → Block → Block) (s : State) (k : Nat) (b : Byte), 1 ≤ s.len.toNat → s.len.toNat ≤ 255 →
    s.off.toNat + s.len.toNat + 4 ≤ s.cfg.bufsz → k < 4 →
      (∃ t, micappWith E s = .next t ∧ (readByte t (s.off.toNat + s.len.toNat + k) ≠ b →
        ∃ u, micverWith E (bufWrite (s.off.toNat + s.len.toNat + k) b t) = .next u ∧
          u.status.matched = false ∧ u.status.err = none)) ∧
      ∃ t, mic0appWith E s = .next t ∧ (readByte t (s.off.toNat + s.len.toNat + k) ≠ b →
        ∃ u, mic0verWith E (bufWrite (s.off.toNat + s.len.toNat + k) b t) = .next u ∧
          u.status.matched = false ∧ u.status.err = none)

/-! ## Stream cipher engine -/

/-- R63, R115, R116, R119: the word that runs it; each payload byte is XORed with its keystream byte, `S_(p
div 16 + 1)[p mod 16]` with `S_i` the encryption of the counter block of index `i`; `AUX` ends as the last
counter block, and is unchanged when `LEN` = 0; no other byte and no other register changes but `STATUS`. How
often `E` is called is timing (log 6). -/
def Obligations.CipherXorsTheKeystream : Prop :=
  decode (0x00000040 : Word) = .ok .cipher ∧ ∀ s : State,
    (s.len.toNat ≤ 4080 → s.off.toNat + s.len.toNat ≤ s.cfg.bufsz →
      ∃ t, exec .cipher s = .next t ∧
        SameButBuf
          { s with
            aux :=
              if s.len.toNat = 0 then s.aux
              else authBlock 0x01 s.dir s.addr s.cnt (BitVec.ofNat 8 ((s.len.toNat + 15) / 16))
            status := { matched := false, errs := s.status.errs, err := none } } t ∧
        (∀ p, p < s.len.toNat → readByte t (s.off.toNat + p) =
          readByte s (s.off.toNat + p) ^^^
            (blockCipher s.key
              (authBlock 0x01 s.dir s.addr s.cnt (BitVec.ofNat 8 (p / 16 + 1)))).get (p % 16)) ∧
        SameOutside s.off.toNat s.len.toNat s t) ∧
    (4080 < s.len.toNat →
      exec .cipher s =
        .next { s with status := { matched := false, errs := true, err := some .len } }) ∧
    (s.len.toNat ≤ 4080 → s.cfg.bufsz < s.off.toNat + s.len.toNat →
      exec .cipher s =
        .next { s with status := { matched := false, errs := true, err := some .range } })

/-- R63, R117: the word that runs it; the sixteen bytes from `OFF` become their encryption under `KEY`; no
other byte and no register changes but `STATUS`. -/
def Obligations.EncTransformsSixteenBytes : Prop :=
  decode (0x00000041 : Word) = .ok .enc ∧ ∀ s : State,
    (s.off.toNat + 16 ≤ s.cfg.bufsz →
      ∃ t, ∃ x : Block, exec .enc s = .next t ∧
        SameButBuf { s with status := { matched := false, errs := s.status.errs, err := none } } t ∧
        (∀ k, k < 16 → x.get k = readByte s (s.off.toNat + k)) ∧
        (∀ k, k < 16 → readByte t (s.off.toNat + k) = (blockCipher s.key x).get k) ∧
        SameOutside s.off.toNat 16 s t) ∧
    (s.cfg.bufsz < s.off.toNat + 16 →
      exec .enc s =
        .next { s with status := { matched := false, errs := true, err := some .range } })

/-- R118: for every `E`, `CIPHER` twice with the same operands restores every byte, at every legal
length. -/
def Obligations.CipherTwiceRestoresThePayload : Prop :=
  ∀ (E : Block → Block → Block) (s : State), s.len.toNat ≤ 4080 →
    s.off.toNat + s.len.toNat ≤ s.cfg.bufsz →
      ∃ t u, cipherWith E s = .next t ∧ cipherWith E t = .next u ∧
        (∀ a, readByte u a = readByte s a) ∧ SameButBuf t u

/-- R118 (d): for every `E`, `ENC` of a buffer that holds the counter block `A_i` leaves the keystream block
that `CIPHER` XORs into block `i`: a payload of zero bytes becomes the same bytes (R118 (c)). -/
def Obligations.EncOfTheCounterBlockIsTheKeystream : Prop :=
  ∀ (E : Block → Block → Block) (s r : State) (i : Nat), r.key = s.key → r.dir = s.dir →
    r.addr = s.addr → r.cnt = s.cnt → s.off.toNat + 16 ≤ s.cfg.bufsz →
    (∀ k, k < 16 → readByte s (s.off.toNat + k) =
      (authBlock 0x01 s.dir s.addr s.cnt (BitVec.ofNat 8 (i + 1))).get k) →
    16 * (i + 1) ≤ r.len.toNat → r.len.toNat ≤ 4080 → r.off.toNat + r.len.toNat ≤ r.cfg.bufsz →
    (∀ k, k < 16 → readByte r (r.off.toNat + 16 * i + k) = 0) →
      ∃ t u, encWith E s = .next t ∧ cipherWith E r = .next u ∧
        ∀ k, k < 16 → readByte t (s.off.toNat + k) = readByte u (r.off.toNat + 16 * i + k)

/-! ## All commands -/

/-- R143: a command that ends in error changes `STATUS` and nothing else: `ERR` is the code, `ERRS` is 1,
`MATCH` is 0. -/
def Obligations.FailedCommandChangesOnlyStatus : Prop :=
  ∀ (w : Word) (s t : State), runWord w s = .next t → t.status.err ≠ none →
    t = { s with status := { matched := false, errs := true, err := t.status.err } }

/-- R141, R142: which commands raise which error, and that the length is checked before the range. -/
def Obligations.ErrorCausesAndTheirPriority : Prop :=
  ∀ (i : Instr) (s : State), ∃ t, exec i s = .next t ∧
    (t.status.err = some .len ↔
      (i ∈ [Instr.micapp, .micver, .mic0app, .mic0ver] ∧ (s.len.toNat = 0 ∨ 255 < s.len.toNat)) ∨
        (i = .cipher ∧ 4080 < s.len.toNat)) ∧
    (t.status.err = some .range ↔
      t.status.err ≠ some .len ∧ i ≠ .build ∧
        ∃ n, need i s.len.toNat = some n ∧ s.cfg.bufsz < s.off.toNat + n) ∧
    t.status.err ≠ some .opcode

/-- R144, R16: after any word written to `CMD`, `STATUS` reads as one of seven numbers; a command that runs to
its end leaves `ERRS` as it was, and only a verify leaves `MATCH` = 1; the sticky flag is never cleared. -/
def Obligations.StatusAfterAnyCommand : Prop :=
  ∀ (w : Word) (s : State), ∃ t, runWord w s = .next t ∧
    statusWord t.status ∈ ([0x00, 0x01, 0x02, 0x03, 0x12, 0x22, 0x32] : List Word) ∧
    (t.status.err = none → t.status.errs = s.status.errs) ∧
    (s.status.errs = true → t.status.errs = true) ∧
    (t.status.matched = true → w = encode .micver ∨ w = encode .mic0ver)

/-- R10, R12, R17, R18, R25: what no command writes, and which commands alone may write each result. -/
def Obligations.CommandsWriteOnlyTheirResults : Prop :=
  ∀ (i : Instr) (s : State), ∃ t, exec i s = .next t ∧
    t.off = s.off ∧ t.len = s.len ∧ t.addr = s.addr ∧ t.cnt = s.cnt ∧ t.dir = s.dir ∧
    t.disc = s.disc ∧ t.trail = s.trail ∧ t.key = s.key ∧ t.cfg = s.cfg ∧ t.resets = s.resets ∧
    t.inputs = s.inputs ∧ t.reply = s.reply ∧
    (i ∉ [Instr.rdle16, .rdle32, .rdbe32] → t.val = s.val) ∧
    (i ≠ .crc16 → t.crcr = s.crcr) ∧
    (i ∉ [Instr.build, .micapp, .micver, .cipher] → t.aux = s.aux) ∧
    (i ∉ [Instr.wrle16, .wrle32, .wrbe32, .micapp, .mic0app, .cipher, .enc] →
      ∀ a, readByte t a = readByte s a)

/-- R14: no command reads any flag: its effect is the same whatever `STATUS` held, but for the sticky flag
it keeps. -/
def Obligations.CommandsDoNotReadTheFlags : Prop :=
  ∀ (i : Instr) (s : State) (u : Status), ∃ t t', exec i s = .next t ∧
    exec i { s with status := u } = .next t' ∧ { t' with status := t.status } = t ∧
    t'.status.matched = t.status.matched ∧ t'.status.err = t.status.err

/-- R17, R25: a command that does not call the block cipher does not depend on the key. -/
def Obligations.CommandsWithoutCipherIgnoreTheKey : Prop :=
  ∀ (i : Instr) (s : State) (k : Block), callsCipher i = false →
    ∃ t, exec i s = .next t ∧ exec i { s with key := k } = .next { t with key := k }

/-- R154, R17, R41: no input other than a write to `CMD` lets anything depend on the key: from two states
that differ only in the key the step answers states that differ only in the key, so what the port answers
(the model's field `reply`, log 2) is the same. -/
def Obligations.KeyIsNeverReadBack : Prop :=
  ∀ (s : State) (k : Block) (x : Input) (rest : List Input), s.inputs = x :: rest →
    (∀ d, x ≠ .host (.regWrite 0 d)) →
      ∃ t k', step s = .next t ∧ step { s with key := k } = .next { t with key := k' }

/-! ## The buffer as data -/

/-- The canonical form (log 1, the model's): two buffers in canonical form that hold the same at every
address are the same data. -/
def Obligations.CanonicalBuffersAreEqualAsData : Prop :=
  ∀ m m' : Memory, m.wf → m'.wf → (∀ a, m.lookup a = m'.lookup a) → m = m'
end

