-- ==== Sys2Proof/Laws/Memory.lean ====
section
/-!
SUPPORT. The buffer as a list of cells: a read after a write, and the canonical form kept by every
memory operation.
-/

namespace Sys2Proof.Machine

@[simp] theorem lookup_nil (a : Nat) : Memory.lookup [] a = none := rfl

theorem lookup_cons (x : Nat) (b : Byte) (m : Memory) (a : Nat) :
    Memory.lookup ((x, b) :: m) a = if a = x then some b else Memory.lookup m a := rfl

/-- A byte just written is read back. -/
@[simp] theorem lookup_write_self (m : Memory) (a : Nat) (b : Byte) :
    (m.write a b).lookup a = some b := by
  induction m with
  | nil => simp [Memory.write, lookup_cons]
  | cons c m ih =>
    obtain ⟨x, d⟩ := c
    simp only [Memory.write]
    split
    · simp [lookup_cons]
    · split
      · simp [lookup_cons]
      · rename_i h
        simp [lookup_cons, h, ih]

/-- A write leaves every other address alone. -/
theorem lookup_write_other (m : Memory) {a y : Nat} (b : Byte) (h : y ≠ a) :
    (m.write a b).lookup y = m.lookup y := by
  induction m with
  | nil => simp [Memory.write, lookup_cons, h]
  | cons c m ih =>
    obtain ⟨x, d⟩ := c
    simp only [Memory.write]
    split
    · simp [lookup_cons, h]
    · split
      · rename_i h'
        subst h'
        simp [lookup_cons, h]
      · simp [lookup_cons, ih]

/-- The cells after a write are the written one and cells that were there. -/
theorem mem_write {m : Memory} {a : Nat} {b : Byte} {c : Host.Cell} (h : c ∈ m.write a b) :
    c = (a, b) ∨ c ∈ m := by
  induction m with
  | nil => simpa [Memory.write] using h
  | cons d m ih =>
    obtain ⟨x, e⟩ := d
    simp only [Memory.write] at h
    split at h
    · simpa using h
    · split at h
      · rcases List.mem_cons.1 h with h | h
        · exact .inl h
        · exact .inr (List.mem_cons_of_mem _ h)
      · rcases List.mem_cons.1 h with h | h
        · exact .inr (by simp [h])
        · rcases ih h with h | h
          · exact .inl h
          · exact .inr (List.mem_cons_of_mem _ h)

/-- A write keeps the canonical form. -/
theorem write_keeps_wf {m : Memory} (a : Nat) (b : Byte) (h : m.wf) : (m.write a b).wf := by
  induction m with
  | nil => simp [Memory.write, Memory.wf]
  | cons c m ih =>
    obtain ⟨x, d⟩ := c
    obtain ⟨hx, hm⟩ := List.pairwise_cons.1 h
    simp only [Memory.write]
    split
    · rename_i hlt
      refine List.pairwise_cons.2 ⟨fun p hp => ?_, h⟩
      rcases List.mem_cons.1 hp with rfl | hp
      · exact hlt
      · exact lt_trans hlt (hx p hp)
    · split
      · rename_i heq
        subst heq
        exact List.pairwise_cons.2 ⟨hx, hm⟩
      · refine List.pairwise_cons.2 ⟨fun p hp => ?_, ih hm⟩
        rcases mem_write hp with rfl | hp
        · show x < a
          omega
        · exact hx p hp

/-- A write below `n` keeps every cell below `n`. -/
theorem write_keeps_below {m : Memory} {n a : Nat} (b : Byte) (h : m.below n) (ha : a < n) :
    (m.write a b).below n := by
  intro c hc
  rcases mem_write hc with rfl | hc
  · exact ha
  · exact h c hc

/-- Consecutive bytes written keep the canonical form. -/
theorem writeBytes_keeps_wf {m : Memory} (a : Nat) (x : List Byte) (h : m.wf) :
    (m.writeBytes a x).wf := by
  induction x generalizing m a with
  | nil => exact h
  | cons b x ih => exact ih (a + 1) (write_keeps_wf a b h)

/-- Consecutive bytes written below `n` keep every cell below `n`. -/
theorem writeBytes_keeps_below {m : Memory} {n a : Nat} {x : List Byte} (h : m.below n)
    (ha : a + x.length ≤ n) : (m.writeBytes a x).below n := by
  induction x generalizing m a with
  | nil => exact h
  | cons b x ih =>
    simp only [List.length_cons] at ha
    exact ih (write_keeps_below b h (by omega)) (by omega)

/-- What is read at any address after consecutive bytes are written. -/
theorem lookup_writeBytes (m : Memory) (a : Nat) (x : List Byte) (y : Nat) :
    (m.writeBytes a x).lookup y =
      if a ≤ y ∧ y < a + x.length then x[y - a]? else m.lookup y := by
  induction x generalizing m a with
  | nil =>
    rw [if_neg fun h => absurd (h.1.trans_lt h.2) (lt_irrefl a)]
    rfl
  | cons b x ih =>
    simp only [Memory.writeBytes, ih, List.length_cons]
    by_cases h : y = a
    · subst h
      rw [if_neg (by omega), if_pos (by omega)]
      simp
    · by_cases h' : a + 1 ≤ y ∧ y < a + 1 + x.length
      · rw [if_pos h', if_pos (by omega), show y - a = (y - (a + 1)) + 1 by omega]
        simp
      · rw [if_neg h', if_neg (by omega), lookup_write_other _ _ h]

/-- The memory after reset is canonical and within any size. -/
theorem reset_memory_wf : State.reset.buf.wf ∧ ∀ n, State.reset.buf.below n :=
  ⟨List.Pairwise.nil, fun _ _ h => absurd h (by simp [State.reset])⟩

end Sys2Proof.Machine
end

