-- ==== Sys2Proof/Laws/State.lean ====
section
/-!
SUPPORT. One lemma per field per named update of State, each true by definition.
-/

namespace Sys2Proof.Machine

section Updates

variable (s : State)

/-! ## setVal -/

@[simp] theorem setVal_cfg (v : BitVec 32) : (s.setVal v).cfg = s.cfg := rfl
@[simp] theorem setVal_off (v : BitVec 32) : (s.setVal v).off = s.off := rfl
@[simp] theorem setVal_len (v : BitVec 32) : (s.setVal v).len = s.len := rfl
@[simp] theorem setVal_val (v : BitVec 32) : (s.setVal v).val = v := rfl
@[simp] theorem setVal_crcr (v : BitVec 32) : (s.setVal v).crcr = s.crcr := rfl
@[simp] theorem setVal_addr (v : BitVec 32) : (s.setVal v).addr = s.addr := rfl
@[simp] theorem setVal_cnt (v : BitVec 32) : (s.setVal v).cnt = s.cnt := rfl
@[simp] theorem setVal_dir (v : BitVec 32) : (s.setVal v).dir = s.dir := rfl
@[simp] theorem setVal_disc (v : BitVec 32) : (s.setVal v).disc = s.disc := rfl
@[simp] theorem setVal_trail (v : BitVec 32) : (s.setVal v).trail = s.trail := rfl
@[simp] theorem setVal_status (v : BitVec 32) : (s.setVal v).status = s.status := rfl
@[simp] theorem setVal_key (v : BitVec 32) : (s.setVal v).key = s.key := rfl
@[simp] theorem setVal_aux (v : BitVec 32) : (s.setVal v).aux = s.aux := rfl
@[simp] theorem setVal_buf (v : BitVec 32) : (s.setVal v).buf = s.buf := rfl
@[simp] theorem setVal_resets (v : BitVec 32) : (s.setVal v).resets = s.resets := rfl
@[simp] theorem setVal_inputs (v : BitVec 32) : (s.setVal v).inputs = s.inputs := rfl
@[simp] theorem setVal_reply (v : BitVec 32) : (s.setVal v).reply = s.reply := rfl

/-! ## setCrcr -/

@[simp] theorem setCrcr_cfg (v : BitVec 16) : (s.setCrcr v).cfg = s.cfg := rfl
@[simp] theorem setCrcr_off (v : BitVec 16) : (s.setCrcr v).off = s.off := rfl
@[simp] theorem setCrcr_len (v : BitVec 16) : (s.setCrcr v).len = s.len := rfl
@[simp] theorem setCrcr_val (v : BitVec 16) : (s.setCrcr v).val = s.val := rfl
@[simp] theorem setCrcr_crcr (v : BitVec 16) : (s.setCrcr v).crcr = v := rfl
@[simp] theorem setCrcr_addr (v : BitVec 16) : (s.setCrcr v).addr = s.addr := rfl
@[simp] theorem setCrcr_cnt (v : BitVec 16) : (s.setCrcr v).cnt = s.cnt := rfl
@[simp] theorem setCrcr_dir (v : BitVec 16) : (s.setCrcr v).dir = s.dir := rfl
@[simp] theorem setCrcr_disc (v : BitVec 16) : (s.setCrcr v).disc = s.disc := rfl
@[simp] theorem setCrcr_trail (v : BitVec 16) : (s.setCrcr v).trail = s.trail := rfl
@[simp] theorem setCrcr_status (v : BitVec 16) : (s.setCrcr v).status = s.status := rfl
@[simp] theorem setCrcr_key (v : BitVec 16) : (s.setCrcr v).key = s.key := rfl
@[simp] theorem setCrcr_aux (v : BitVec 16) : (s.setCrcr v).aux = s.aux := rfl
@[simp] theorem setCrcr_buf (v : BitVec 16) : (s.setCrcr v).buf = s.buf := rfl
@[simp] theorem setCrcr_resets (v : BitVec 16) : (s.setCrcr v).resets = s.resets := rfl
@[simp] theorem setCrcr_inputs (v : BitVec 16) : (s.setCrcr v).inputs = s.inputs := rfl
@[simp] theorem setCrcr_reply (v : BitVec 16) : (s.setCrcr v).reply = s.reply := rfl

/-! ## setAux -/

@[simp] theorem setAux_cfg (x : Block) : (s.setAux x).cfg = s.cfg := rfl
@[simp] theorem setAux_off (x : Block) : (s.setAux x).off = s.off := rfl
@[simp] theorem setAux_len (x : Block) : (s.setAux x).len = s.len := rfl
@[simp] theorem setAux_val (x : Block) : (s.setAux x).val = s.val := rfl
@[simp] theorem setAux_crcr (x : Block) : (s.setAux x).crcr = s.crcr := rfl
@[simp] theorem setAux_addr (x : Block) : (s.setAux x).addr = s.addr := rfl
@[simp] theorem setAux_cnt (x : Block) : (s.setAux x).cnt = s.cnt := rfl
@[simp] theorem setAux_dir (x : Block) : (s.setAux x).dir = s.dir := rfl
@[simp] theorem setAux_disc (x : Block) : (s.setAux x).disc = s.disc := rfl
@[simp] theorem setAux_trail (x : Block) : (s.setAux x).trail = s.trail := rfl
@[simp] theorem setAux_status (x : Block) : (s.setAux x).status = s.status := rfl
@[simp] theorem setAux_key (x : Block) : (s.setAux x).key = s.key := rfl
@[simp] theorem setAux_aux (x : Block) : (s.setAux x).aux = x := rfl
@[simp] theorem setAux_buf (x : Block) : (s.setAux x).buf = s.buf := rfl
@[simp] theorem setAux_resets (x : Block) : (s.setAux x).resets = s.resets := rfl
@[simp] theorem setAux_inputs (x : Block) : (s.setAux x).inputs = s.inputs := rfl
@[simp] theorem setAux_reply (x : Block) : (s.setAux x).reply = s.reply := rfl

/-! ## setBuf -/

@[simp] theorem setBuf_cfg (m : Memory) : (s.setBuf m).cfg = s.cfg := rfl
@[simp] theorem setBuf_off (m : Memory) : (s.setBuf m).off = s.off := rfl
@[simp] theorem setBuf_len (m : Memory) : (s.setBuf m).len = s.len := rfl
@[simp] theorem setBuf_val (m : Memory) : (s.setBuf m).val = s.val := rfl
@[simp] theorem setBuf_crcr (m : Memory) : (s.setBuf m).crcr = s.crcr := rfl
@[simp] theorem setBuf_addr (m : Memory) : (s.setBuf m).addr = s.addr := rfl
@[simp] theorem setBuf_cnt (m : Memory) : (s.setBuf m).cnt = s.cnt := rfl
@[simp] theorem setBuf_dir (m : Memory) : (s.setBuf m).dir = s.dir := rfl
@[simp] theorem setBuf_disc (m : Memory) : (s.setBuf m).disc = s.disc := rfl
@[simp] theorem setBuf_trail (m : Memory) : (s.setBuf m).trail = s.trail := rfl
@[simp] theorem setBuf_status (m : Memory) : (s.setBuf m).status = s.status := rfl
@[simp] theorem setBuf_key (m : Memory) : (s.setBuf m).key = s.key := rfl
@[simp] theorem setBuf_aux (m : Memory) : (s.setBuf m).aux = s.aux := rfl
@[simp] theorem setBuf_buf (m : Memory) : (s.setBuf m).buf = m := rfl
@[simp] theorem setBuf_resets (m : Memory) : (s.setBuf m).resets = s.resets := rfl
@[simp] theorem setBuf_inputs (m : Memory) : (s.setBuf m).inputs = s.inputs := rfl
@[simp] theorem setBuf_reply (m : Memory) : (s.setBuf m).reply = s.reply := rfl

/-! ## setStatus -/

@[simp] theorem setStatus_cfg (u : Status) : (s.setStatus u).cfg = s.cfg := rfl
@[simp] theorem setStatus_off (u : Status) : (s.setStatus u).off = s.off := rfl
@[simp] theorem setStatus_len (u : Status) : (s.setStatus u).len = s.len := rfl
@[simp] theorem setStatus_val (u : Status) : (s.setStatus u).val = s.val := rfl
@[simp] theorem setStatus_crcr (u : Status) : (s.setStatus u).crcr = s.crcr := rfl
@[simp] theorem setStatus_addr (u : Status) : (s.setStatus u).addr = s.addr := rfl
@[simp] theorem setStatus_cnt (u : Status) : (s.setStatus u).cnt = s.cnt := rfl
@[simp] theorem setStatus_dir (u : Status) : (s.setStatus u).dir = s.dir := rfl
@[simp] theorem setStatus_disc (u : Status) : (s.setStatus u).disc = s.disc := rfl
@[simp] theorem setStatus_trail (u : Status) : (s.setStatus u).trail = s.trail := rfl
@[simp] theorem setStatus_status (u : Status) : (s.setStatus u).status = u := rfl
@[simp] theorem setStatus_key (u : Status) : (s.setStatus u).key = s.key := rfl
@[simp] theorem setStatus_aux (u : Status) : (s.setStatus u).aux = s.aux := rfl
@[simp] theorem setStatus_buf (u : Status) : (s.setStatus u).buf = s.buf := rfl
@[simp] theorem setStatus_resets (u : Status) : (s.setStatus u).resets = s.resets := rfl
@[simp] theorem setStatus_inputs (u : Status) : (s.setStatus u).inputs = s.inputs := rfl
@[simp] theorem setStatus_reply (u : Status) : (s.setStatus u).reply = s.reply := rfl

/-! ## setInputs -/

@[simp] theorem setInputs_cfg (l : List Input) : (s.setInputs l).cfg = s.cfg := rfl
@[simp] theorem setInputs_off (l : List Input) : (s.setInputs l).off = s.off := rfl
@[simp] theorem setInputs_len (l : List Input) : (s.setInputs l).len = s.len := rfl
@[simp] theorem setInputs_val (l : List Input) : (s.setInputs l).val = s.val := rfl
@[simp] theorem setInputs_crcr (l : List Input) : (s.setInputs l).crcr = s.crcr := rfl
@[simp] theorem setInputs_addr (l : List Input) : (s.setInputs l).addr = s.addr := rfl
@[simp] theorem setInputs_cnt (l : List Input) : (s.setInputs l).cnt = s.cnt := rfl
@[simp] theorem setInputs_dir (l : List Input) : (s.setInputs l).dir = s.dir := rfl
@[simp] theorem setInputs_disc (l : List Input) : (s.setInputs l).disc = s.disc := rfl
@[simp] theorem setInputs_trail (l : List Input) : (s.setInputs l).trail = s.trail := rfl
@[simp] theorem setInputs_status (l : List Input) : (s.setInputs l).status = s.status := rfl
@[simp] theorem setInputs_key (l : List Input) : (s.setInputs l).key = s.key := rfl
@[simp] theorem setInputs_aux (l : List Input) : (s.setInputs l).aux = s.aux := rfl
@[simp] theorem setInputs_buf (l : List Input) : (s.setInputs l).buf = s.buf := rfl
@[simp] theorem setInputs_resets (l : List Input) : (s.setInputs l).resets = s.resets := rfl
@[simp] theorem setInputs_inputs (l : List Input) : (s.setInputs l).inputs = l := rfl
@[simp] theorem setInputs_reply (l : List Input) : (s.setInputs l).reply = s.reply := rfl

/-! ## setReply -/

@[simp] theorem setReply_cfg (r : Reply) : (s.setReply r).cfg = s.cfg := rfl
@[simp] theorem setReply_off (r : Reply) : (s.setReply r).off = s.off := rfl
@[simp] theorem setReply_len (r : Reply) : (s.setReply r).len = s.len := rfl
@[simp] theorem setReply_val (r : Reply) : (s.setReply r).val = s.val := rfl
@[simp] theorem setReply_crcr (r : Reply) : (s.setReply r).crcr = s.crcr := rfl
@[simp] theorem setReply_addr (r : Reply) : (s.setReply r).addr = s.addr := rfl
@[simp] theorem setReply_cnt (r : Reply) : (s.setReply r).cnt = s.cnt := rfl
@[simp] theorem setReply_dir (r : Reply) : (s.setReply r).dir = s.dir := rfl
@[simp] theorem setReply_disc (r : Reply) : (s.setReply r).disc = s.disc := rfl
@[simp] theorem setReply_trail (r : Reply) : (s.setReply r).trail = s.trail := rfl
@[simp] theorem setReply_status (r : Reply) : (s.setReply r).status = s.status := rfl
@[simp] theorem setReply_key (r : Reply) : (s.setReply r).key = s.key := rfl
@[simp] theorem setReply_aux (r : Reply) : (s.setReply r).aux = s.aux := rfl
@[simp] theorem setReply_buf (r : Reply) : (s.setReply r).buf = s.buf := rfl
@[simp] theorem setReply_resets (r : Reply) : (s.setReply r).resets = s.resets := rfl
@[simp] theorem setReply_inputs (r : Reply) : (s.setReply r).inputs = s.inputs := rfl
@[simp] theorem setReply_reply (r : Reply) : (s.setReply r).reply = r := rfl

end Updates

end Sys2Proof.Machine
end

