-- ==== Sys2Proof/Laws/Ops.lean ====
section
/-!
SUPPORT. What each shared operation of Machine/Ops.lean and Machine/Operands.lean can do, said once.
-/

namespace Sys2Proof.Machine

/-! ## Reading and writing `BUF` -/

/-- A byte after a write: inside the range the written byte, outside it the old one. -/
theorem readByte_memWrite (s : State) (a : Nat) (x : List Byte) (y : Nat) :
    readByte (memWrite a x s) y =
      if h : a ≤ y ∧ y < a + x.length then x[y - a]'(by omega) else readByte s y := by
  simp only [readByte, memWrite, setBuf_buf, setBuf_resets, lookup_writeBytes]
  by_cases h : a ≤ y ∧ y < a + x.length
  · rw [dif_pos h, if_pos h, List.getElem?_eq_getElem (by omega), Option.getD_some]
  · rw [dif_neg h, if_neg h]

/-- A byte outside the written range is as before. -/
theorem readByte_memWrite_outside (s : State) {a y : Nat} {x : List Byte}
    (h : y < a ∨ a + x.length ≤ y) : readByte (memWrite a x s) y = readByte s y := by
  rw [readByte_memWrite, dif_neg (by omega)]

/-- Byte `k` of the written range is byte `k` of what was written. -/
theorem readByte_memWrite_inside (s : State) {a k : Nat} {x : List Byte} (h : k < x.length) :
    readByte (memWrite a x s) (a + k) = x[k] := by
  rw [readByte_memWrite, dif_pos ⟨by omega, by omega⟩]
  simp

/-- `readByte` looks at the buffer and the index of the free bytes only. -/
theorem readByte_congr {s t : State} (hb : t.buf = s.buf) (hr : t.resets = s.resets) (a : Nat) :
    readByte t a = readByte s a := by
  simp [readByte, hb, hr]

@[simp] theorem readByte_setVal (s : State) (v) (a : Nat) : readByte (s.setVal v) a = readByte s a := rfl
@[simp] theorem readByte_setCrcr (s : State) (v) (a : Nat) : readByte (s.setCrcr v) a = readByte s a := rfl
@[simp] theorem readByte_setAux (s : State) (v) (a : Nat) : readByte (s.setAux v) a = readByte s a := rfl
@[simp] theorem readByte_setStatus (s : State) (v) (a : Nat) : readByte (s.setStatus v) a = readByte s a := rfl
@[simp] theorem readByte_setInputs (s : State) (v) (a : Nat) : readByte (s.setInputs v) a = readByte s a := rfl
@[simp] theorem readByte_setReply (s : State) (v) (a : Nat) : readByte (s.setReply v) a = readByte s a := rfl

@[simp] theorem length_memRead (s : State) (a n : Nat) : (memRead s a n).length = n := by
  simp [memRead]

@[simp] theorem getElem_memRead (s : State) (a n k : Nat) (h : k < (memRead s a n).length) :
    (memRead s a n)[k] = readByte s (a + k) := by
  simp [memRead]

/-- Two reads agree where the bytes agree. -/
theorem memRead_congr {s t : State} {a n : Nat}
    (h : ∀ k, k < n → readByte t (a + k) = readByte s (a + k)) : memRead t a n = memRead s a n := by
  simp only [memRead]
  exact List.map_congr_left fun k hk => h k (List.mem_range.1 hk)

/-- What was written is read back. -/
theorem memRead_memWrite_self (s : State) (a : Nat) (x : List Byte) :
    memRead (memWrite a x s) a x.length = x := by
  apply List.ext_getElem (by simp)
  intro k h₁ h₂
  rw [getElem_memRead, readByte_memWrite_inside s h₂]

/-- A write changes the buffer only. -/
theorem memWrite_eq (a : Nat) (x : List Byte) (s : State) :
    memWrite a x s = { s with buf := s.buf.writeBytes a x } := rfl

/-! ## Error and end -/

theorem raiseErr_eq (c : Err) (s : State) :
    raiseErr c s = { s with status := { matched := false, errs := true, err := some c } } := rfl

theorem finish_eq (m : Bool) (s : State) :
    finish m s = { s with status := { matched := m, errs := s.status.errs, err := none } } := rfl

@[simp] theorem readByte_raiseErr (c : Err) (s : State) (a : Nat) :
    readByte (raiseErr c s) a = readByte s a := rfl

@[simp] theorem readByte_finish (m : Bool) (s : State) (a : Nat) :
    readByte (finish m s) a = readByte s a := rfl

/-! ## The check-then-act skeleton -/

/-- Everything a command can do: it reports the first failing check, or has its effect. -/
theorem command_cases (i : Instr) (body : State → State) (s : State) :
    (∃ c, checkError i s = some c ∧ command i body s = .next (raiseErr c s)) ∨
      (checkError i s = none ∧ command i body s = .next (body s)) := by
  unfold command
  cases checkError i s with
  | some c => exact .inl ⟨c, rfl, rfl⟩
  | none => exact .inr ⟨rfl, rfl⟩

theorem command_of_ok {i : Instr} {s : State} (h : checkError i s = none) (body : State → State) :
    command i body s = .next (body s) := by
  simp [command, h]

theorem command_of_error {i : Instr} {s : State} {c : Err} (h : checkError i s = some c)
    (body : State → State) : command i body s = .next (raiseErr c s) := by
  simp [command, h]

/-- All checks pass exactly when the length is within the limits and the footprint, if any, fits. -/
theorem checkError_none_iff (i : Instr) (s : State) :
    checkError i s = none ↔
      lenOk i s.len.toNat = true ∧
        ∀ n, need i s.len.toNat = some n → s.off.toNat + n ≤ s.cfg.bufsz := by
  unfold checkError
  cases lenOk i s.len.toNat <;> cases need i s.len.toNat <;> simp

/-- `ERR_LEN` exactly when the length is outside the limits. -/
theorem checkError_len_iff (i : Instr) (s : State) :
    checkError i s = some .len ↔ lenOk i s.len.toNat = false := by
  unfold checkError
  cases lenOk i s.len.toNat <;> cases need i s.len.toNat <;> simp

/-- `ERR_RANGE` exactly when the length is within the limits and the footprint does not fit. -/
theorem checkError_range_iff (i : Instr) (s : State) :
    checkError i s = some .range ↔
      lenOk i s.len.toNat = true ∧
        ∃ n, need i s.len.toNat = some n ∧ s.cfg.bufsz < s.off.toNat + n := by
  unfold checkError
  cases lenOk i s.len.toNat <;> cases need i s.len.toNat <;> simp

/-- The checks look at `OFF`, `LEN` and the parameters only. -/
theorem checkError_congr (i : Instr) {s t : State} (ho : t.off = s.off) (hl : t.len = s.len)
    (hc : t.cfg = s.cfg) : checkError i t = checkError i s := by
  simp [checkError, ho, hl, hc]

/-! ## Byte strings and blocks -/

@[simp] theorem length_leBytes (n v : Nat) : (leBytes n v).length = n := by simp [leBytes]

@[simp] theorem length_beBytes (n v : Nat) : (beBytes n v).length = n := by simp [beBytes]

theorem block_ext {x y : Block} (h : x.bytes = y.bytes) : x = y := by
  cases x; cases y; simp_all

theorem block_get_eq (x : Block) {k : Nat} (h : k < 16) :
    x.get k = x.bytes[k]'(by rw [x.size]; exact h) := by
  simp [Block.get, List.getD, x.size, h]

/-- The bytes of an exclusive or. -/
theorem xorBlock_bytes (x y : Block) :
    (xorBlock x y).bytes = List.zipWith (· ^^^ ·) x.bytes y.bytes := rfl

/-- A string of sixteen bytes is padded with nothing. -/
theorem padBlock_of_length {x : List Byte} (h : x.length = 16) : (padBlock x).bytes = x := by
  simp [padBlock, ← h]

/-- A shorter string is padded with zero bytes on the right. -/
theorem padBlock_of_short {x : List Byte} (h : x.length ≤ 16) :
    (padBlock x).bytes = x ++ List.replicate (16 - x.length) 0 := by
  simp only [padBlock, List.take_append, List.take_replicate]
  rw [List.take_of_length_le h, Nat.min_eq_left (by omega)]

end Sys2Proof.Machine
end

