-- ==== Sys2Proof/Laws/Engines.lean ====
section
/-!
SUPPORT. What each shared operation of the five units can do, said once: the codec, the checksum, the
block constructor, the MIC engine, the stream cipher engine.
-/

namespace Sys2Proof.Machine

/-! ## Sizes -/

theorem ceil16_mul (n : Nat) : n ≤ 16 * ceil16 n := by unfold ceil16; omega

theorem ceil16_lt {n : Nat} (h : 1 ≤ n) : 16 * (ceil16 n - 1) < n := by unfold ceil16; omega

theorem ceil16_pos {n : Nat} : 1 ≤ ceil16 n ↔ 1 ≤ n := by unfold ceil16; omega

/-! ## Byte codec -/

@[simp] theorem leVal_nil : leVal [] = 0 := rfl

@[simp] theorem leVal_cons (b : Byte) (x : List Byte) : leVal (b :: x) = b.toNat + 256 * leVal x := rfl

@[simp] theorem beVal_nil : beVal [] = 0 := rfl

/-- The byte at the highest address is the least significant. -/
@[simp] theorem beVal_append_singleton (x : List Byte) (b : Byte) :
    beVal (x ++ [b]) = 256 * beVal x + b.toNat := by
  simp [beVal]

/-- Big-endian is little-endian of the bytes in reverse. -/
theorem beVal_eq_leVal_reverse (x : List Byte) : beVal x = leVal x.reverse := by
  induction x using List.reverseRecOn with
  | nil => rfl
  | append_singleton x b ih =>
    rw [beVal_append_singleton, List.reverse_append, ih]
    exact Nat.add_comm _ _

/-- The sum of R80. -/
theorem beVal_cons (b : Byte) (x : List Byte) :
    beVal (b :: x) = b.toNat * 256 ^ x.length + beVal x := by
  induction x using List.reverseRecOn with
  | nil => simp [beVal]
  | append_singleton x c ih =>
    rw [← List.cons_append, beVal_append_singleton, beVal_append_singleton, ih, List.length_append,
      List.length_singleton, Nat.pow_succ]
    ring

/-- A codec read: an error, or `VAL` and `STATUS`. -/
theorem codecRead_cases (i : Instr) (n : Nat) (value : List Byte → Nat) (s : State) :
    (∃ c, checkError i s = some c ∧ codecRead i n value s = .next (raiseErr c s)) ∨
      (checkError i s = none ∧
        codecRead i n value s =
          .next { s with
            val := BitVec.ofNat 32 (value (memRead s s.off.toNat n))
            status := { matched := false, errs := s.status.errs, err := none } }) :=
  command_cases i _ s

/-- A codec write: an error, or the bytes from `OFF` and `STATUS`. -/
theorem codecWrite_cases (i : Instr) (bytes : Word → List Byte) (s : State) :
    (∃ c, checkError i s = some c ∧ codecWrite i bytes s = .next (raiseErr c s)) ∨
      (checkError i s = none ∧
        codecWrite i bytes s =
          .next { s with
            buf := s.buf.writeBytes s.off.toNat (bytes s.val)
            status := { matched := false, errs := s.status.errs, err := none } }) :=
  command_cases i _ s

/-! ## CRC-16 -/

@[simp] theorem crc16_nil : crc16 [] = 0 := rfl

/-- The checksum of a longer string continues from the checksum of the shorter one. -/
@[simp] theorem crc16_append (x y : List Byte) : crc16 (x ++ y) = y.foldl crcByte (crc16 x) := by
  simp [crc16]

/-! ## Block constructor -/

/-- The sixteen bytes of an AuthBlock. -/
theorem authBlock_bytes (disc : Byte) (dir : BitVec 1) (addr cnt : Word) (trail : Byte) :
    (authBlock disc dir addr cnt trail).bytes =
      [disc, 0, 0, 0, 0, dir.setWidth 8] ++ leBytes 4 addr.toNat ++ leBytes 4 cnt.toNat ++
        [0, trail] := rfl

/-! ## MIC engine -/

@[simp] theorem length_micMessage (s : State) : (micMessage s).length = s.len.toNat := by
  simp [micMessage]

@[simp] theorem length_micTag (E : Block → Block → Block) (c0 : Block) (s : State) :
    (micTag E c0 s).length = 4 := by
  simp [micTag, (mac E s.key c0 (micMessage s)).size]

/-- Byte `k` of the tag is byte `k` of the final chaining value. -/
theorem micTag_getElem (E : Block → Block → Block) (c0 : Block) (s : State) {k : Nat}
    (h : k < (micTag E c0 s).length) :
    (micTag E c0 s)[k] = (mac E s.key c0 (micMessage s)).get k := by
  have hk : k < 4 := by simpa using h
  rw [block_get_eq _ (by omega)]
  simp [micTag]

/-- The comparison says exactly that the four pairs are equal. -/
theorem tagMatches_iff (r c : List Byte) :
    tagMatches r c = true ↔ ∀ k, k < 4 → r.getD k 0 = c.getD k 0 := by
  simp [tagMatches]

theorem micAppend_cases (E : Block → Block → Block) (i : Instr) (c0 aux : State → Block) (s : State) :
    (∃ c, checkError i s = some c ∧ micAppend E i c0 aux s = .next (raiseErr c s)) ∨
      (checkError i s = none ∧
        micAppend E i c0 aux s =
          .next { s with
            buf := s.buf.writeBytes (micAddress s) (micTag E (c0 s) s)
            aux := aux s
            status := { matched := false, errs := s.status.errs, err := none } }) :=
  command_cases i _ s

theorem micVerify_cases (E : Block → Block → Block) (i : Instr) (c0 aux : State → Block) (s : State) :
    (∃ c, checkError i s = some c ∧ micVerify E i c0 aux s = .next (raiseErr c s)) ∨
      (checkError i s = none ∧
        micVerify E i c0 aux s =
          .next { s with
            aux := aux s
            status :=
              { matched := tagMatches (memRead s (micAddress s) 4) (micTag E (c0 s) s)
                errs := s.status.errs
                err := none } }) :=
  command_cases i _ s

/-! ## Stream cipher engine -/

/-- One turn of the loop changes `AUX` and the buffer only. -/
theorem cipherBlock_eq (E : Block → Block → Block) (s : State) (i : Nat) :
    cipherBlock E s i =
      { s with aux := counterBlock s i, buf := (cipherBlock E s i).buf } := rfl

/-- The bytes one turn of the loop changes, and how. -/
theorem readByte_cipherBlock (E : Block → Block → Block) (s : State) {i : Nat} (hi : 1 ≤ i) (a : Nat) :
    readByte (cipherBlock E s i) a =
      if s.off.toNat + 16 * (i - 1) ≤ a ∧ a < s.off.toNat + min (16 * i) s.len.toNat then
        readByte s a ^^^ keystreamByte E s (a - s.off.toNat)
      else readByte s a := by
  simp only [cipherBlock, readByte_memWrite, readByte_setAux, List.length_zipWith, length_memRead,
    (keystreamBlock E s i).size]
  by_cases h : s.off.toNat + 16 * (i - 1) ≤ a ∧ a < s.off.toNat + min (16 * i) s.len.toNat
  · rw [if_pos h, dif_pos (by omega)]
    obtain ⟨p, rfl⟩ : ∃ p, a = s.off.toNat + 16 * (i - 1) + p := ⟨_, (Nat.add_sub_cancel' h.1).symm⟩
    have hp : p < 16 := by omega
    have h1 : (s.off.toNat + 16 * (i - 1) + p - s.off.toNat) / 16 + 1 = i := by omega
    have h2 : (s.off.toNat + 16 * (i - 1) + p - s.off.toNat) % 16 = p := by omega
    simp only [keystreamByte, h1, h2, block_get_eq _ hp, List.getElem_zipWith, getElem_memRead,
      Nat.add_sub_cancel_left]
  · rw [if_neg h, dif_neg (by omega)]

/-- What `n` turns of the loop leave. -/
theorem cipherTurns (E : Block → Block → Block) (s : State) (n : Nat) (hn : n ≤ ceil16 s.len.toNat) :
    let t := (List.range' 1 n).foldl (cipherBlock E) s
    (∀ a, readByte t a =
        if s.off.toNat ≤ a ∧ a < s.off.toNat + min (16 * n) s.len.toNat then
          readByte s a ^^^ keystreamByte E s (a - s.off.toNat)
        else readByte s a) ∧
      t = { s with aux := if n = 0 then s.aux else counterBlock s n, buf := t.buf } := by
  induction n with
  | zero =>
    refine ⟨fun a => ?_, rfl⟩
    rw [if_neg (by omega)]
    rfl
  | succ n ih =>
    obtain ⟨hb, hf⟩ := ih (by omega)
    rw [List.range'_1_concat, List.foldl_append]
    generalize (List.range' 1 n).foldl (cipherBlock E) s = t at hb hf
    simp only [List.foldl_cons, List.foldl_nil]
    have ho : t.off = s.off := by rw [hf]
    have hl : t.len = s.len := by rw [hf]
    have hks : ∀ p, keystreamByte E t p = keystreamByte E s p := by
      intro p
      simp only [keystreamByte, keystreamBlock, counterBlock]
      rw [hf]
    have hmul : 16 * n < s.len.toNat := by
      have := ceil16_lt (n := s.len.toNat) (ceil16_pos.1 (by omega))
      omega
    refine ⟨fun a => ?_, ?_⟩
    · rw [readByte_cipherBlock E t (by omega), ho, hl, hks, hb a]
      by_cases h1 : s.off.toNat + 16 * n ≤ a ∧ a < s.off.toNat + min (16 * (n + 1)) s.len.toNat
      · rw [if_pos (by omega), if_neg (by omega), if_pos (by omega)]
      · rw [if_neg (by omega)]
        by_cases h2 : s.off.toNat ≤ a ∧ a < s.off.toNat + min (16 * n) s.len.toNat
        · rw [if_pos h2, if_pos (by omega)]
        · rw [if_neg h2, if_neg (by omega)]
    · rw [cipherBlock_eq]
      have hc : counterBlock t (1 + n) = counterBlock s (n + 1) := by
        rw [Nat.add_comm, hf]
        rfl
      rw [hc]
      generalize cipherBlock E t (1 + n) = u
      rw [hf]
      simp

/-- Everything the loop of `CIPHER` does: each payload byte is XORed with its keystream byte, every other
byte is as before, `AUX` is the last counter block built, and nothing else changes. -/
theorem cipherLoop_spec (E : Block → Block → Block) (s : State) :
    (∀ a, readByte (cipherLoop E s) a =
        if s.off.toNat ≤ a ∧ a < s.off.toNat + s.len.toNat then
          readByte s a ^^^ keystreamByte E s (a - s.off.toNat)
        else readByte s a) ∧
      cipherLoop E s =
        { s with
          aux := if s.len.toNat = 0 then s.aux else counterBlock s (ceil16 s.len.toNat)
          buf := (cipherLoop E s).buf } := by
  obtain ⟨hb, hf⟩ := cipherTurns E s _ le_rfl
  refine ⟨fun a => ?_, ?_⟩
  · rw [cipherLoop, hb a, Nat.min_eq_right (ceil16_mul _)]
  · rw [cipherLoop]
    have : (ceil16 s.len.toNat = 0) = (s.len.toNat = 0) := propext ⟨by unfold ceil16; omega, by unfold ceil16; omega⟩
    simp only [this] at hf
    exact hf

/-- The loop keeps the canonical form. -/
theorem cipherLoop_keeps_wf (E : Block → Block → Block) {s : State} (h : s.buf.wf) :
    (cipherLoop E s).buf.wf := by
  suffices ∀ l : List Nat, ∀ t : State, t.buf.wf → (l.foldl (cipherBlock E) t).buf.wf from this _ _ h
  intro l
  induction l with
  | nil => exact fun t ht => ht
  | cons i l ih => exact fun t ht => ih _ (writeBytes_keeps_wf _ _ ht)

/-- The loop writes inside the payload range only. -/
theorem cipherLoop_keeps_below (E : Block → Block → Block) {s : State} {n : Nat} (h : s.buf.below n)
    (hn : s.off.toNat + s.len.toNat ≤ n) : (cipherLoop E s).buf.below n := by
  suffices ∀ l : List Nat, (∀ i ∈ l, 1 ≤ i ∧ i ≤ ceil16 s.len.toNat) → ∀ t : State, t.buf.below n →
      t.off = s.off → t.len = s.len → (l.foldl (cipherBlock E) t).buf.below n by
    refine this _ (fun i hi => ?_) s h rfl rfl
    rw [List.mem_range'_1] at hi
    omega
  intro l
  induction l with
  | nil => exact fun _ t ht _ _ => ht
  | cons i l ih =>
    intro hl t ht ho hlen
    refine ih (fun j hj => hl j (List.mem_cons_of_mem _ hj)) _ ?_ ho hlen
    refine writeBytes_keeps_below ht ?_
    have hi := hl i List.mem_cons_self
    have : 16 * (ceil16 s.len.toNat - 1) < s.len.toNat := ceil16_lt (ceil16_pos.1 (by omega))
    simp only [List.length_zipWith, length_memRead, (keystreamBlock E t i).size, ho, hlen]
    omega

theorem cipherWith_cases (E : Block → Block → Block) (s : State) :
    (∃ c, checkError .cipher s = some c ∧ cipherWith E s = .next (raiseErr c s)) ∨
      (checkError .cipher s = none ∧ cipherWith E s = .next (finish false (cipherLoop E s))) :=
  command_cases .cipher _ s

theorem encWith_cases (E : Block → Block → Block) (s : State) :
    (∃ c, checkError .enc s = some c ∧ encWith E s = .next (raiseErr c s)) ∨
      (checkError .enc s = none ∧
        encWith E s =
          .next { s with
            buf := s.buf.writeBytes s.off.toNat (E s.key (padBlock (memRead s s.off.toNat 16))).bytes
            status := { matched := false, errs := s.status.errs, err := none } }) :=
  command_cases .enc _ s

/-! ## All commands -/

/-- What each command does once its checks have passed. -/
def commandEffect (i : Instr) (s : State) : State :=
  match i with
  | .rdle16 => finish false (s.setVal (BitVec.ofNat 32 (leVal (memRead s s.off.toNat 2))))
  | .rdle32 => finish false (s.setVal (BitVec.ofNat 32 (leVal (memRead s s.off.toNat 4))))
  | .rdbe32 => finish false (s.setVal (BitVec.ofNat 32 (beVal (memRead s s.off.toNat 4))))
  | .wrle16 => finish false (memWrite s.off.toNat (leBytes 2 (s.val.extractLsb' 0 16).toNat) s)
  | .wrle32 => finish false (memWrite s.off.toNat (leBytes 4 s.val.toNat) s)
  | .wrbe32 => finish false (memWrite s.off.toNat (beBytes 4 s.val.toNat) s)
  | .crc16 => finish false (s.setCrcr (crc16 (memRead s s.off.toNat s.len.toNat)))
  | .build => finish false (s.setAux (authBlock s.disc s.dir s.addr s.cnt s.trail))
  | .micapp =>
    finish false (memWrite (micAddress s) (micTag blockCipher (blockCipher s.key (dataB0 s)) s)
      (s.setAux (dataB0 s)))
  | .micver =>
    finish (tagMatches (memRead s (micAddress s) 4)
      (micTag blockCipher (blockCipher s.key (dataB0 s)) s)) (s.setAux (dataB0 s))
  | .mic0app =>
    finish false (memWrite (micAddress s) (micTag blockCipher Block.zero s) (s.setAux s.aux))
  | .mic0ver =>
    finish (tagMatches (memRead s (micAddress s) 4) (micTag blockCipher Block.zero s)) (s.setAux s.aux)
  | .cipher => finish false (cipherLoop blockCipher s)
  | .enc =>
    finish false
      (memWrite s.off.toNat (blockCipher s.key (padBlock (memRead s s.off.toNat 16))).bytes s)

/-- Every command is its checks and then its effect. -/
theorem exec_eq_command (i : Instr) (s : State) : exec i s = command i (commandEffect i) s := by
  cases i <;> rfl

/-- Everything a command can do: the first failing check reported and nothing else, or its effect. -/
theorem exec_cases (i : Instr) (s : State) :
    (∃ c, checkError i s = some c ∧ exec i s = .next (raiseErr c s)) ∨
      (checkError i s = none ∧ exec i s = .next (commandEffect i s)) := by
  rw [exec_eq_command]
  exact command_cases i _ s

theorem exec_of_ok {i : Instr} {s : State} (h : checkError i s = none) :
    exec i s = .next (commandEffect i s) := by
  rw [exec_eq_command, command_of_ok h]

theorem exec_of_error {i : Instr} {s : State} {c : Err} (h : checkError i s = some c) :
    exec i s = .next (raiseErr c s) := by
  rw [exec_eq_command, command_of_error h]

/-- A state with the five fields that hold results taken from another. -/
def withResults (s t : State) : State :=
  { s with val := t.val, crcr := t.crcr, aux := t.aux, buf := t.buf, status := t.status }

/-- The loop of `CIPHER` writes results only. -/
theorem cipherLoop_writes_results (E : Block → Block → Block) (s : State) :
    finish false (cipherLoop E s) = withResults s (finish false (cipherLoop E s)) := by
  have h := (cipherLoop_spec E s).2
  generalize cipherLoop E s = t at h
  rw [h]
  rfl

/-- No command writes anything but results: `VAL`, `CRCR`, `AUX`, `BUF`, `STATUS`. -/
theorem commandEffect_writes_results (i : Instr) (s : State) :
    commandEffect i s = withResults s (commandEffect i s) := by
  cases i with
  | cipher => exact cipherLoop_writes_results blockCipher s
  | _ => rfl

/-- Every command answers a next state that differs in results only. -/
theorem exec_writes_results (i : Instr) (s : State) :
    ∃ t, exec i s = .next t ∧ t = withResults s t := by
  rcases exec_cases i s with ⟨c, _, h⟩ | ⟨_, h⟩
  · exact ⟨_, h, rfl⟩
  · exact ⟨_, h, commandEffect_writes_results i s⟩

end Sys2Proof.Machine
end

