-- ==== Sys2Proof/Laws/PerInstr.lean ====
section
/-!
SUPPORT. A family of facts stated for each command by itself: the fields of its command word
(spec/30_encoding.md R60: bits 31:8 are 0; R61: no codec or MIC command sets a bit it must not).
-/

namespace Sys2Proof.Laws.WordFields

/-- The command is well formed, its word has zero upper bits, and its unit number is at most 4. -/
def Statement (i : Sys2Proof.Instr) : Prop :=
  i.wf = true ∧ (Sys2Proof.encode i).extractLsb' 8 24 = 0 ∧
    ((Sys2Proof.encode i).extractLsb' 4 4).toNat ≤ 4

theorem rdle16 : Statement .rdle16 := ⟨rfl, rfl, by decide⟩
theorem rdle32 : Statement .rdle32 := ⟨rfl, rfl, by decide⟩
theorem rdbe32 : Statement .rdbe32 := ⟨rfl, rfl, by decide⟩
theorem wrle16 : Statement .wrle16 := ⟨rfl, rfl, by decide⟩
theorem wrle32 : Statement .wrle32 := ⟨rfl, rfl, by decide⟩
theorem wrbe32 : Statement .wrbe32 := ⟨rfl, rfl, by decide⟩
theorem crc16 : Statement .crc16 := ⟨rfl, rfl, by decide⟩
theorem build : Statement .build := ⟨rfl, rfl, by decide⟩
theorem micapp : Statement .micapp := ⟨rfl, rfl, by decide⟩
theorem micver : Statement .micver := ⟨rfl, rfl, by decide⟩
theorem mic0app : Statement .mic0app := ⟨rfl, rfl, by decide⟩
theorem mic0ver : Statement .mic0ver := ⟨rfl, rfl, by decide⟩
theorem cipher : Statement .cipher := ⟨rfl, rfl, by decide⟩
theorem enc : Statement .enc := ⟨rfl, rfl, by decide⟩

end Sys2Proof.Laws.WordFields
end

