-- ==== Sys2Proof/Laws/Port.lean ====
section
/-!
SUPPORT. What one step, one transaction and one register access can do, said once.
-/

namespace Sys2Proof.Machine

/-- One step is the oldest input performed on the state without it, or nothing. -/
theorem step_cases (s : State) :
    (s.inputs = [] ∧ step s = .next s) ∨
      ∃ x rest, s.inputs = x :: rest ∧ step s = perform x (s.setInputs rest) := by
  unfold step stepInput
  cases h : s.inputs with
  | nil => exact .inl ⟨rfl, rfl⟩
  | cons x rest => exact .inr ⟨x, rest, rfl, rfl⟩

theorem step_cons {s : State} {x : Input} {rest : List Input} (h : s.inputs = x :: rest) :
    step s = perform x (s.setInputs rest) := by
  unfold step stepInput
  rw [h]

@[simp] theorem perform_host (t : Transaction) (s : State) :
    perform (.host t) s = transact t (s.setReply .done) := rfl

@[simp] theorem perform_reset (s : State) : perform .reset s = .next (applyReset s) := rfl

@[simp] theorem transact_regWrite (n : BitVec 6) (d : Word) (s : State) :
    transact (.regWrite n d) s = regWrite n d s := rfl

@[simp] theorem transact_regRead (n : BitVec 6) (s : State) :
    transact (.regRead n) s = .next (regRead n s) := rfl

@[simp] theorem transact_bufWrite (a : Nat) (b : Byte) (s : State) :
    transact (.bufWrite a b) s = .next (bufWrite a b s) := rfl

@[simp] theorem transact_bufRead (a : Nat) (s : State) :
    transact (.bufRead a) s = .next (bufRead a s) := rfl

/-- A register number and its name say the same. -/
theorem numberOf_regOf (n : BitVec 6) : numberOf (regOf n) = n := by
  revert n
  decide

/-- The only number of `CMD` is 0. -/
theorem regOf_eq_cmd_iff (n : BitVec 6) : regOf n = .cmd ↔ n = 0 := by
  revert n
  decide

/-- A write to `CMD` runs the word. -/
@[simp] theorem regWrite_cmd (d : Word) (s : State) : regWrite 0 d s = runWord d s := rfl

/-- A write to any other register stores. -/
theorem regWrite_store {n : BitVec 6} (h : n ≠ 0) (d : Word) (s : State) :
    regWrite n d s = .next (storeReg (regOf n) d s) := by
  have hc : regOf n ≠ .cmd := fun e => h ((regOf_eq_cmd_iff n).1 e)
  unfold regWrite
  generalize regOf n = r at hc
  cases r <;> first | rfl | exact absurd rfl hc

/-- A word written to `CMD`: a command, or `ERR_OPCODE`. -/
theorem runWord_cases (w : Word) (s : State) :
    (∃ i, decode w = .ok i ∧ runWord w s = exec i s) ∨
      (∃ e, decode w = .error e ∧ runWord w s = .next (raiseErr .opcode s)) := by
  unfold runWord
  cases decode w with
  | ok i => exact .inl ⟨i, rfl, rfl⟩
  | error e => exact .inr ⟨e, rfl, rfl⟩

/-- The buffer after a host write. -/
theorem bufWrite_of_lt {a : Nat} {s : State} (h : a < s.cfg.bufsz) (b : Byte) :
    bufWrite a b s = memWrite a [b] s := if_pos h

theorem bufWrite_of_ge {a : Nat} {s : State} (h : s.cfg.bufsz ≤ a) (b : Byte) :
    bufWrite a b s = s := if_neg (by omega)

/-- Reset, field by field. -/
theorem applyReset_eq (s : State) :
    applyReset s = { State.reset with cfg := s.cfg, resets := s.resets + 1, inputs := s.inputs } := rfl

end Sys2Proof.Machine
end

