-- ==== Sys2Proof/Machine/Cmac.lean ====
section
/-!
DEFINITION. FOR VALIDATION ONLY, not part of the hardware: the other value of `MAC_FINAL`, which
spec/43_mic_engine.md R110 describes from general knowledge. No command and no step calls it.
-/

namespace Sys2Proof.Machine

/-- `dbl(X)`: the block as a 128-bit big-endian number, shifted left by one, with 0x87 XORed into the last
byte when the top bit was 1 (R110). -/
def cmacDouble (x : Block) : Block :=
  Block.ofFn fun p =>
    let carry : Byte := if (x.get (p + 1)).getLsbD 7 then 1 else 0
    (x.get p <<< 1) ^^^
      (if p = 15 then (if (x.get 0).getLsbD 7 then 0x87 else 0) else carry)

/-- The last chunk under `MAC_FINAL = CMAC` (R110): a full chunk XOR `K1`; a shorter one with 0x80 and zeros
appended, XOR `K2`. -/
def cmacLastChunk (E : Block → Block → Block) (k : Block) (m : List Byte) : Block :=
  let k1 := cmacDouble (E k Block.zero)
  if m.length % 16 = 0 then xorBlock (chunk m (ceil16 m.length)) k1
  else xorBlock (chunk (m ++ [0x80]) (ceil16 m.length)) (cmacDouble k1)

/-- The chaining function under `MAC_FINAL = CMAC` (R110): it differs from `mac` in the last chunk only. -/
def cmac (E : Block → Block → Block) (k c0 : Block) (m : List Byte) : Block :=
  let before := (List.range' 1 (ceil16 m.length - 1)).foldl (fun c j => E k (xorBlock c (chunk m j))) c0
  E k (xorBlock before (cmacLastChunk E k m))

end Sys2Proof.Machine
end

