-- ==== Sys2Proof/Tests/Slice0.lean ====
section
/-!
SUPPORT. Tests with results taken from the spec (spec/95_test_vectors.md, cited as V<n> and P<n>, and the
examples of the rules), and the witnesses of the statements: for each hypothesis of a statement a concrete
input that meets it, at the boundary of each clause.
-/

namespace Sys2Proof.Tests

-- One theorem after another: the evaluations by the kernel then need no further threads.
set_option Elab.async false

open Sys2Proof Sys2Proof.Machine

/-! ## Helpers -/

/-- Sixteen bytes from one number, printed as the spec prints a key: byte 0 first. -/
def block (n : Nat) : Block := Block.ofFn fun p => BitVec.ofNat 8 (n >>> (8 * (15 - p)))

/-- The key of V21, V30 and V31. -/
def key1 : Block := block 0x2B7E151628AED2A6ABF7158809CF4F3C

/-- The key of V24 (rule R132). -/
def key2 : Block := block 0x000102030405060708090A0B0C0D0E0F

/-- A state with these bytes at the bottom of `BUF`, and these operands. -/
def sample (off len : Nat) (x : List Byte) : State :=
  { State.reset with
    off := BitVec.ofNat 16 off
    len := BitVec.ofNat 16 len
    buf := Memory.writeBytes [] 0 x }

/-- The same with the address and counter of V21 and V30. -/
def keyed (k : Block) (cnt : Word) (dir : BitVec 1) (s : State) : State :=
  { s with key := k, addr := 0x01020304, cnt := cnt, dir := dir }

/-- What a part of the next state is, if the outcome is a next state. -/
def after {α : Type} (o : Host.Outcome State Fault Refusal) (f : State → α) : Option α :=
  match o with
  | .next t => some (f t)
  | .fault _ => none
  | .refused _ => none

/-- `STATUS` as a number. -/
def statusOf (t : State) : Nat := (statusWord t.status).toNat

/-! ## Well-formedness: an ill-formed term for each check -/

theorem test_wf_bufsz_too_small : Config.wf { bufsz := 15 } = false := by decide
theorem test_wf_bufsz_too_large : Config.wf { bufsz := 65537 } = false := by decide
theorem test_wf_bufsz_limits :
    Config.wf { bufsz := 16 } = true ∧ Config.wf { bufsz := 65536 } = true := by decide
theorem test_wf_refuses_write_to_crcr : Transaction.wf 512 (.regWrite 0x05 0) = false := by decide
theorem test_wf_refuses_write_to_aux : Transaction.wf 512 (.regWrite 0x2F 0) = false := by decide
theorem test_wf_refuses_write_to_reserved : Transaction.wf 512 (.regWrite 0x0B 0) = false := by decide
theorem test_wf_refuses_reserved_status_bits : Transaction.wf 512 (.regWrite 0x01 4) = false := by decide
theorem test_wf_refuses_read_of_key : Transaction.wf 512 (.regRead 0x10) = false := by decide
theorem test_wf_refuses_read_of_reserved : Transaction.wf 512 (.regRead 0x3F) = false := by decide
theorem test_wf_refuses_write_beyond_buffer : Transaction.wf 512 (.bufWrite 512 0) = false := by decide
theorem test_wf_refuses_read_beyond_buffer : Transaction.wf 512 (.bufRead 512) = false := by decide
theorem test_wf_allows : Transaction.wf 512 (.regWrite 0x01 2) = true ∧
    Transaction.wf 512 (.regRead 0x00) = true ∧ Transaction.wf 512 (.bufWrite 511 0) = true ∧
    Instr.wf .enc = true := by decide

/-! ## Decoding: each word written out as zero, unit, fn (R60, R61), and its neighbours -/

theorem test_decode_rdle16 : decode 0b000000000000000000000000_0000_0001 = .ok .rdle16 := by decide
theorem test_decode_rdle32 : decode 0b000000000000000000000000_0000_0010 = .ok .rdle32 := by decide
theorem test_decode_rdbe32 : decode 0b000000000000000000000000_0000_0011 = .ok .rdbe32 := by decide
theorem test_decode_wrle16 : decode 0b000000000000000000000000_0000_0101 = .ok .wrle16 := by decide
theorem test_decode_wrle32 : decode 0b000000000000000000000000_0000_0110 = .ok .wrle32 := by decide
theorem test_decode_wrbe32 : decode 0b000000000000000000000000_0000_0111 = .ok .wrbe32 := by decide
theorem test_decode_crc16 : decode 0b000000000000000000000000_0001_0000 = .ok .crc16 := by decide
theorem test_decode_build : decode 0b000000000000000000000000_0010_0000 = .ok .build := by decide
theorem test_decode_micapp : decode 0b000000000000000000000000_0011_0000 = .ok .micapp := by decide
theorem test_decode_micver : decode 0b000000000000000000000000_0011_0001 = .ok .micver := by decide
theorem test_decode_mic0app : decode 0b000000000000000000000000_0011_0010 = .ok .mic0app := by decide
theorem test_decode_mic0ver : decode 0b000000000000000000000000_0011_0011 = .ok .mic0ver := by decide
theorem test_decode_cipher : decode 0b000000000000000000000000_0100_0000 = .ok .cipher := by decide
theorem test_decode_enc : decode 0b000000000000000000000000_0100_0001 = .ok .enc := by decide

/-- R65: the ends of every range of illegal opcodes. -/
theorem test_decode_illegal :
    (([0x00, 0x04, 0x08, 0x0F, 0x11, 0x1F, 0x21, 0x2F, 0x34, 0x3F, 0x42, 0xFF] : List Word).all
      fun w => decode w = .error .reservedOpcode) = true := by decide

/-- R65: a legal opcode under non-zero upper bits is illegal. -/
theorem test_decode_upper_bits :
    decode 0x110 = .error .upperBitsSet ∧ decode 0x80000001 = .error .upperBitsSet := by decide

theorem test_decode_table_word :
    decodeTableWord 32 0x40 = some .cipher ∧ decodeTableWord 32 0x04 = none ∧
      decodeTableWord 40 0x100000001 = none := by decide

/-- The word placed for the next step is the one it runs, straight after reset: `WRBE32` of 0 at 0. -/
theorem test_fetch_word :
    after (step (State.reset.withFetchWord 32 0x07)) (fun t => (t.buf, t.inputs)) =
      some ([(0, 0), (1, 0), (2, 0), (3, 0)], []) := by decide

/-! ## Byte codec (V4 to V6, V12) -/

/-- `BUF[0..8)` of V12. -/
def v12 : List Byte := [0x01, 0x0A, 0x02, 0x03, 0xFF, 0xFE, 0xFD, 0xFC]

theorem test_rdle16 : after (exec .rdle16 (sample 0 0 v12)) State.val = some 0x00000A01 := by decide
theorem test_rdle16_no_sign : after (exec .rdle16 (sample 4 0 v12)) State.val = some 0x0000FEFF := by decide
theorem test_rdle32 : after (exec .rdle32 (sample 0 0 v12)) State.val = some 0x03020A01 := by decide
theorem test_rdle32_high : after (exec .rdle32 (sample 4 0 v12)) State.val = some 0xFCFDFEFF := by decide
theorem test_rdbe32 : after (exec .rdbe32 (sample 0 0 v12)) State.val = some 0x010A0203 := by decide
theorem test_rdbe32_odd : after (exec .rdbe32 (sample 3 0 v12)) State.val = some 0x03FFFEFD := by decide
theorem test_wrle16 :
    after (exec .wrle16 { sample 2 0 v12 with val := 0x12345678 }) (fun t => (memRead t 0 8, t.val)) =
      some ([0x01, 0x0A, 0x78, 0x56, 0xFF, 0xFE, 0xFD, 0xFC], 0x12345678) := by decide
theorem test_wrle32 :
    after (exec .wrle32 { sample 4 0 v12 with val := 0x12345678 }) (fun t => memRead t 0 8) =
      some [0x01, 0x0A, 0x02, 0x03, 0x78, 0x56, 0x34, 0x12] := by decide
theorem test_wrle32_no_byte_at_the_end :
    after (exec .wrle32 (sample 509 0 v12)) (fun t => (statusOf t, t.buf)) =
      some (0x32, (sample 509 0 v12).buf) := by decide
theorem test_wrbe32 :
    after (exec .wrbe32 { sample 0 0 v12 with val := 0x12345678 }) (fun t => memRead t 0 8) =
      some [0x12, 0x34, 0x56, 0x78, 0xFF, 0xFE, 0xFD, 0xFC] := by decide

/-! ## CRC-16 (V2, V13) -/

theorem test_crc16 :
    after (exec .crc16 (sample 0 4 [0x01, 0x02, 0x01, 0x03])) State.crcr = some 0x1B86 := by decide +kernel
theorem test_crc16_empty_at_the_end :
    after (exec .crc16 { sample 512 0 [] with crcr := 7 }) (fun t => (t.crcr, statusOf t)) =
      some (0, 0) := by decide
theorem test_crc16_check_string :
    crc16 [0x31, 0x32, 0x33, 0x34, 0x35, 0x36, 0x37, 0x38, 0x39] = 0x31C3 := by decide +kernel

/-! ## Block constructor (V8, V14) -/

theorem test_build :
    after (exec .build { State.reset with disc := 0x49, dir := 1, addr := 0xAB1232F3, cnt := 3, trail := 0x0B })
      State.aux = some (block 0x49000000_0001F332_12AB0300_0000000B) := by decide
theorem test_build_all_ones :
    after (exec .build
        { State.reset with disc := 0xFF, dir := 1, addr := 0xFFFFFFFF, cnt := 0xFFFFFFFF, trail := 0xFF })
      State.aux = some (block 0xFF000000_0001FFFF_FFFFFFFF_FFFF00FF) := by decide

/-! ## Block cipher (R132) -/

/-- The three known answers of R132. -/
theorem test_aes_known_answers :
    aes128 key2 (block 0x00112233445566778899AABBCCDDEEFF) = block 0x69C4E0D86A7B0430D8CDB78070B4C55A ∧
      aes128 key1 (block 0x3243F6A8885A308D313198A2E0370734) = block 0x3925841D02DC09FBDC118597196A0B32 ∧
      aes128 Block.zero Block.zero = block 0x66E94BD4EF8A2C3B884CFA59CA342B2E := by decide +kernel

/-! ## MIC engine (V20, V21, V24) -/

/-- The message of V21. -/
def v21 (n : Nat) : List Byte := (List.range n).map fun i => BitVec.ofNat 8 (7 * i + 1)

/-- V21, `LEN` = 5. -/
theorem test_micapp :
    after (exec .micapp (keyed key1 0xABCD 1 (sample 0 5 (v21 5)))) (fun t => (memRead t 0 9, t.aux)) =
      some (v21 5 ++ [0x0F, 0x7F, 0xF2, 0x14], block 0x49000000_00010403_0201CDAB_00000005) := by
  decide +kernel

/-- V21, `LEN` = 17: two chunks, the second padded with zero bytes. -/
theorem test_micapp_two_chunks :
    after (exec .micapp (keyed key1 0xABCD 1 (sample 0 17 (v21 17)))) (fun t => memRead t 17 4) =
      some [0x05, 0x84, 0x1E, 0xEA] := by decide +kernel

/-- V21, `LEN` = 5: the four bytes match; with the last of them changed they do not. -/
theorem test_micver :
    after (exec .micver (keyed key1 0xABCD 1 (sample 0 5 (v21 5 ++ [0x0F, 0x7F, 0xF2, 0x14])))) statusOf =
        some 1 ∧
      after (exec .micver (keyed key1 0xABCD 1 (sample 0 5 (v21 5 ++ [0x0F, 0x7F, 0xF2, 0x15])))) statusOf =
        some 0 := by decide +kernel

/-- V24. -/
theorem test_mic0app :
    after (exec .mic0app
        { sample 0 16 (block 0x00112233445566778899AABBCCDDEEFF).bytes with key := key2, aux := key1 })
      (fun t => (memRead t 16 4, t.aux)) = some ([0x69, 0xC4, 0xE0, 0xD8], key1) := by decide +kernel

/-- V25: zero padding carries no length. -/
theorem test_mic0app_padding :
    after (exec .mic0app { sample 0 3 [1, 2, 3] with key := key1 }) (fun t => memRead t 3 4) =
      some [0x97, 0x5E, 0x33, 0x1C] := by decide +kernel

/-- V24. -/
theorem test_mic0ver :
    after (exec .mic0ver
        { sample 0 16 ((block 0x00112233445566778899AABBCCDDEEFF).bytes ++ [0x69, 0xC4, 0xE0, 0xD8]) with
          key := key2 }) statusOf = some 1 := by decide +kernel

theorem test_mic_length_limits :
    after (exec .mic0ver (sample 0 0 [])) statusOf = some 0x22 ∧
      after (exec .mic0app (sample 0 256 [])) statusOf = some 0x22 ∧
      after (exec .micapp (sample 65000 300 [])) statusOf = some 0x22 ∧
      after (exec .micver (sample 254 255 [])) statusOf = some 0x32 := by decide +kernel

/-- V11: the rules' tag, and the printed one, which only the variant of R110 gives. -/
theorem test_printed_vector_is_cmac :
    let k := block 0x99D58493D1205B43EFF938F0F66C339E
    let m := (block 0x40AE1304_26800000_016F895D_98810714).bytes
    let c0 := blockCipher k (authBlock 0x49 0 0x260413AE 0 16)
    (mac blockCipher k c0 m).bytes.take 4 = [0xBA, 0x72, 0xF2, 0x13] ∧
      (cmac blockCipher k c0 m).bytes.take 4 = [0xE3, 0x26, 0x82, 0x95] := by decide +kernel

/-! ## Stream cipher engine (V30, P2, P4) -/

/-- V30 and P2: three bytes of keystream, the byte after them untouched, `AUX` the counter block. -/
theorem test_cipher :
    after (exec .cipher (keyed key1 1 0 (sample 0 3 [0, 0, 0, 0xEE]))) (fun t => (memRead t 0 4, t.aux)) =
      some ([0x05, 0xA1, 0xAC, 0xEE], block 0x01000000_00000403_02010100_00000001) := by decide +kernel

/-- V30: byte 16 of a payload is XORed with byte 0 of the second keystream block. -/
theorem test_cipher_second_block :
    after (exec .cipher (keyed key1 1 0 (sample 0 17 (List.replicate 17 0)))) (fun t => memRead t 14 3) =
      some [0x76, 0x1D, 0x54] := by decide +kernel

/-- R117 and R132. -/
theorem test_enc :
    after (exec .enc
        { sample 0 0 (block 0x00112233445566778899AABBCCDDEEFF).bytes with key := key2, aux := key1 })
      (fun t => (memRead t 0 16, t.aux)) =
        some ((block 0x69C4E0D86A7B0430D8CDB78070B4C55A).bytes, key1) := by decide +kernel

theorem test_enc_range :
    after (exec .enc (sample 497 0 [])) (fun t => (statusOf t, t.buf)) = some (0x32, []) := by decide

/-! ## The port (R16, R23, R40 to R43) -/

theorem test_length_register_keeps_sixteen_bits :
    after (regWrite 0x03 0x10001 State.reset) State.len = some 1 := by decide
theorem test_direction_keeps_one_bit : after (regWrite 0x08 3 State.reset) State.dir = some 1 := by decide
theorem test_status_write_clears_sticky_only :
    after (regWrite 0x01 2 { State.reset with status := { matched := false, errs := true, err := some .range } })
      statusOf = some 0x30 := by decide
theorem test_buffer_write_beyond_the_end_is_lost :
    after (step { State.reset with inputs := [wb 512 0xAA] }) State.buf = some [] := by decide
theorem test_buffer_read_beyond_the_end_is_zero :
    after (step { State.reset with inputs := [rb 512] }) State.reply = some (.byte 0) := by decide
theorem test_key_reads_zero :
    after (step { State.reset with key := key1, inputs := [rd (.key 0)] }) State.reply =
      some (.word 0) := by decide

/-! ## Witnesses: the hypotheses of the statements can be met -/

theorem witness_DecodeAndEncodeAgree : decode 0x41 = .ok .enc := by decide

theorem witness_IllegalWordReportsErrOpcode :
    (∀ i : Instr, (0x00 : Word) ≠ encode i) ∧ (∀ i : Instr, (0x42 : Word) ≠ encode i) ∧
      ∀ i : Instr, (0x110 : Word) ≠ encode i := by
  refine ⟨?_, ?_, ?_⟩ <;> intro i <;> cases i <;> decide

theorem witness_StepRunsTheDecodedCommand :
    (State.reset.withFetchWord 32 0x20).inputs = .host (.regWrite 0 0x20) :: [] ∧
      decode 0x20 = .ok .build := by decide

theorem witness_EveryStepAnswersAndTakesTheOldestInput : State.reset.inputs = [] := rfl

theorem witness_StepNeverChangesTheParameters : step State.reset = .next State.reset := rfl

/-- A state that holds a byte, a match and a pending input. -/
def busy : State :=
  { sample 0 1 [7] with
    status := { matched := true, errs := true, err := none }
    inputs := [wb 511 9] }

theorem witness_EveryStepKeepsTheInvariant : busy.Inv ∧ ∃ t, step busy = .next t :=
  ⟨⟨by decide, by decide, by decide, fun _ => rfl⟩, _, rfl⟩

theorem witness_ResetInputClearsEveryRegister :
    { busy with inputs := [.reset, rb 0] }.inputs = .reset :: [rb 0] := rfl

theorem witness_ReservedRegisterReadsZeroAndIgnoresWrites :
    ∀ n ∈ ([0x0B, 0x0F, 0x30, 0x3F] : List (BitVec 6)),
      (0x0B ≤ n.toNat ∧ n.toNat ≤ 0x0F) ∨ 0x30 ≤ n.toNat := by decide

theorem witness_ReadOnlyRegisterIgnoresWrites :
    ∀ n ∈ ([0x05, 0x20, 0x2F] : List (BitVec 6)),
      n.toNat = 0x05 ∨ (0x20 ≤ n.toNat ∧ n.toNat ≤ 0x2F) := by decide

theorem witness_WriteToOtherThanCmdFrame : (0x04 : BitVec 6) ≠ 0 ∧ (0x3F : BitVec 6) ≠ 0 := by decide

theorem witness_RegisterReadChangesNoState :
    { busy with inputs := [.host (.regRead 0x1F)] }.inputs = .host (.regRead 0x1F) :: [] ∧
      ∀ n ∈ ([0x00, 0x10, 0x1F] : List (BitVec 6)),
        n = 0 ∨ (0x10 ≤ n.toNat ∧ n.toNat ≤ 0x1F) := by decide

theorem witness_BufWriteStoresOneByteOrNothing :
    511 < State.reset.cfg.bufsz ∧ State.reset.cfg.bufsz ≤ 512 := by decide

theorem witness_BufReadAnswersTheByteOrZero :
    { busy with inputs := [.host (.bufRead 511)] }.inputs = .host (.bufRead 511) :: [] ∧
      511 < busy.cfg.bufsz ∧ busy.cfg.bufsz ≤ 512 := by decide

theorem witness_LdbufWritesTheBytes :
    510 + [(1 : Byte), 2].length ≤ State.reset.cfg.bufsz ∧ [(1 : Byte), 2] ≠ [] := by decide

/-- Both clauses of `Rdle16ReadsLittleEndian` and `Wrle16WritesTwoBytes`, and the 16-bit clause of the two
round trips, at the edge. -/
theorem witness_codec_sixteen :
    (sample 510 0 []).off.toNat + 2 ≤ (sample 510 0 []).cfg.bufsz ∧
      (sample 511 0 []).cfg.bufsz < (sample 511 0 []).off.toNat + 2 := by decide

/-- Both clauses of the four 32-bit codec statements, and the 32-bit clause of the two round trips, at the edge. -/
theorem witness_codec_thirty_two :
    (sample 508 0 []).off.toNat + 4 ≤ (sample 508 0 []).cfg.bufsz ∧
      (sample 509 0 []).cfg.bufsz < (sample 509 0 []).off.toNat + 4 := by decide

theorem witness_Crc16ChecksumsTheRange :
    (∀ p ∈ [(512, 0), (0, 512)],
        (sample p.1 p.2 []).off.toNat + (sample p.1 p.2 []).len.toNat ≤ (sample p.1 p.2 []).cfg.bufsz) ∧
      ∀ p ∈ [(513, 0), (1, 512)],
        (sample p.1 p.2 []).cfg.bufsz < (sample p.1 p.2 []).off.toNat + (sample p.1 p.2 []).len.toNat := by
  decide

theorem witness_Crc16IsLinearOverXor : [(1 : Byte), 2].length = [(3 : Byte), 4].length := rfl

/-- All clauses: the last byte of a block, a short message and its padding, and a full chunk. -/
theorem witness_MacIsTheZeroPaddedChain :
    15 < 16 ∧ [(1 : Byte), 2] ≠ [] ∧ (block (0x0102 <<< 112)).bytes = [(1 : Byte), 2] ++ List.replicate 14 0 ∧
      key1.bytes = key1.bytes ++ List.replicate 0 0 := by decide

theorem witness_DataFrameMacIsTheJoinFrameMacOfB0AndMessage : [(1 : Byte)] ≠ [] := by decide

theorem witness_ZeroBytesInTheLastChunkDoNotChangeTheMac :
    [(1 : Byte), 2, 3] ≠ [] ∧ ([(1 : Byte), 2, 3].length + 13 + 15) / 16 =
      ([(1 : Byte), 2, 3].length + 15) / 16 := by decide

/-- The three clauses of the four MIC statements, and the hypotheses of the two statements on an append
followed by a verify, at the edges: `LEN` 1 and 255, 0 and 256, and one byte too far. -/
theorem witness_mic :
    (∀ p ∈ [(507, 1), (253, 255)],
        1 ≤ (sample p.1 p.2 []).len.toNat ∧ (sample p.1 p.2 []).len.toNat ≤ 255 ∧
          (sample p.1 p.2 []).off.toNat + (sample p.1 p.2 []).len.toNat + 4 ≤ (sample p.1 p.2 []).cfg.bufsz) ∧
      (∀ p ∈ [(0, 0), (0, 256), (65535, 65535)],
        (sample p.1 p.2 []).len.toNat = 0 ∨ 255 < (sample p.1 p.2 []).len.toNat) ∧
      ∀ p ∈ [(508, 1), (254, 255)],
        1 ≤ (sample p.1 p.2 []).len.toNat ∧ (sample p.1 p.2 []).len.toNat ≤ 255 ∧
          (sample p.1 p.2 []).cfg.bufsz <
            (sample p.1 p.2 []).off.toNat + (sample p.1 p.2 []).len.toNat + 4 := by
  decide

/-- With the identity in place of `E`, the tag of the byte 5 under a zero key and zero chaining value is
05 00 00 00; the last MIC byte differs from 1. -/
theorem witness_ChangedMicByteNeverMatches :
    after (mic0appWith (fun _ x => x) (sample 507 1 [])) (fun t => decide (readByte t (507 + 1 + 3) ≠ 1)) =
      some true ∧
    after (micappWith (fun _ x => x) (sample 507 1 [])) (fun t => decide (readByte t (507 + 1 + 3) ≠ 1)) =
      some true := by decide +kernel

/-- A buffer large enough for the longest payload. -/
def wide (off len : Nat) : State := { sample off len [] with cfg := { bufsz := 65536 } }

/-- The three clauses of `CipherXorsTheKeystream` and the hypotheses of `CipherTwiceRestoresThePayload`, at
the edges: `LEN` 0 and 4080, 4081, and one byte too far. -/
theorem witness_cipher :
    (∀ p ∈ [(0, 0), (61456, 4080)],
        (wide p.1 p.2).len.toNat ≤ 4080 ∧
          (wide p.1 p.2).off.toNat + (wide p.1 p.2).len.toNat ≤ (wide p.1 p.2).cfg.bufsz) ∧
      4080 < (wide 0 4081).len.toNat ∧
      ∀ p ∈ [(65535, 2), (61457, 4080)],
        (wide p.1 p.2).len.toNat ≤ 4080 ∧
          (wide p.1 p.2).cfg.bufsz < (wide p.1 p.2).off.toNat + (wide p.1 p.2).len.toNat := by
  decide

theorem witness_EncTransformsSixteenBytes :
    (sample 496 0 []).off.toNat + 16 ≤ (sample 496 0 []).cfg.bufsz ∧
      (sample 497 0 []).cfg.bufsz < (sample 497 0 []).off.toNat + 16 := by decide

/-- P4: the buffer of `s` holds `A_2`, the payload of `r` is thirty-two zero bytes. -/
theorem witness_EncOfTheCounterBlockIsTheKeystream :
    let s := keyed key1 1 0 (sample 0 16 (block 0x01000000_00000403_02010100_00000002).bytes)
    let r := keyed key1 1 0 (sample 0 32 (List.replicate 32 0))
    r.key = s.key ∧ r.dir = s.dir ∧ r.addr = s.addr ∧ r.cnt = s.cnt ∧
      s.off.toNat + 16 ≤ s.cfg.bufsz ∧
      (∀ k, k < 16 → readByte s (s.off.toNat + k) =
        (authBlock 0x01 s.dir s.addr s.cnt (BitVec.ofNat 8 (1 + 1))).get k) ∧
      16 * (1 + 1) ≤ r.len.toNat ∧ r.len.toNat ≤ 4080 ∧ r.off.toNat + r.len.toNat ≤ r.cfg.bufsz ∧
      ∀ k, k < 16 → readByte r (r.off.toNat + 16 * 1 + k) = 0 := by
  decide +kernel

theorem witness_FailedCommandChangesOnlyStatus :
    after (runWord 0 State.reset) (fun t => t.status.err) = some (some .opcode) := by decide

/-- Each error of `ErrorCausesAndTheirPriority` and each kind of `StatusAfterAnyCommand` happens. -/
theorem witness_StatusAfterAnyCommand :
    after (exec .cipher (wide 0 4081)) statusOf = some 0x22 ∧
      after (exec .crc16 (sample 513 0 [])) statusOf = some 0x32 ∧
      after (runWord 0x04 State.reset) statusOf = some 0x12 ∧
      after (exec .build busy) statusOf = some 0x02 := by decide

theorem witness_CommandsWithoutCipherIgnoreTheKey : callsCipher .crc16 = false := rfl

theorem witness_KeyIsNeverReadBack :
    { busy with inputs := [rd (.key 0)] }.inputs = .host (.regRead 0x10) :: [] ∧
      ∀ d : Word, (.host (.regRead 0x10) : Input) ≠ .host (.regWrite 0 d) :=
  ⟨rfl, fun _ h => nomatch h⟩

theorem witness_CanonicalBuffersAreEqualAsData :
    Memory.wf [(3, 1), (5, 0)] ∧ ∀ a, Memory.lookup [(3, 1), (5, 0)] a = Memory.lookup [(3, 1), (5, 0)] a :=
  ⟨by decide, fun _ => rfl⟩

end Sys2Proof.Tests
end

section
/-!
The invariant of `Machine/Safety.lean` under every step: one lemma per named operation, then the effects of
the commands, the transactions of the port, and the step. The lemmas about operations that answer an outcome
say also that the answer is a next state.
-/

namespace Sys2Proof.Machine

/-! ## Named operations -/

/-- The invariant looks at the parameters, the buffer and `STATUS` only. -/
theorem State.Inv.congr {s t : State} (h : s.Inv) (hcfg : t.cfg = s.cfg) (hbuf : t.buf = s.buf)
    (hstatus : t.status = s.status) : t.Inv where
  cfg_wf := hcfg ▸ h.cfg_wf
  buf_wf := hbuf ▸ h.buf_wf
  buf_below := hcfg ▸ hbuf ▸ h.buf_below
  match_no_error := hstatus ▸ h.match_no_error

theorem setVal_keeps_inv {s : State} (h : s.Inv) (v : BitVec 32) : (s.setVal v).Inv :=
  h.congr rfl rfl rfl

theorem setCrcr_keeps_inv {s : State} (h : s.Inv) (v : BitVec 16) : (s.setCrcr v).Inv :=
  h.congr rfl rfl rfl

theorem setAux_keeps_inv {s : State} (h : s.Inv) (x : Block) : (s.setAux x).Inv :=
  h.congr rfl rfl rfl

theorem setInputs_keeps_inv {s : State} (h : s.Inv) (l : List Input) : (s.setInputs l).Inv :=
  h.congr rfl rfl rfl

theorem setReply_keeps_inv {s : State} (h : s.Inv) (r : Reply) : (s.setReply r).Inv :=
  h.congr rfl rfl rfl

/-- A new `STATUS` has to meet the clause of R16 alone. -/
theorem setStatus_keeps_inv {s : State} (h : s.Inv) {u : Status}
    (hu : u.matched = true → u.err = none) : (s.setStatus u).Inv where
  cfg_wf := h.cfg_wf
  buf_wf := h.buf_wf
  buf_below := h.buf_below
  match_no_error := hu

/-- An error clears `MATCH` (R143). -/
theorem raiseErr_keeps_inv {s : State} (h : s.Inv) (c : Err) : (raiseErr c s).Inv :=
  setStatus_keeps_inv h fun hm => absurd hm Bool.false_ne_true

/-- The end of a command clears `ERR` (R144), so any comparison result may stand. -/
theorem finish_keeps_inv {s : State} (h : s.Inv) (m : Bool) : (finish m s).Inv :=
  setStatus_keeps_inv h fun _ => rfl

/-- Bytes written inside `BUF[0..BUFSZ)`. -/
theorem memWrite_keeps_inv {s : State} (h : s.Inv) {a : Nat} {x : List Byte}
    (hfit : a + x.length ≤ s.cfg.bufsz) : (memWrite a x s).Inv where
  cfg_wf := h.cfg_wf
  buf_wf := writeBytes_keeps_wf a x h.buf_wf
  buf_below := writeBytes_keeps_below h.buf_below hfit
  match_no_error := h.match_no_error

/-- The loop of `CIPHER` over a payload that fits the buffer. -/
theorem cipherLoop_keeps_inv (E : Block → Block → Block) {s : State} (h : s.Inv)
    (hfit : s.off.toNat + s.len.toNat ≤ s.cfg.bufsz) : (cipherLoop E s).Inv := by
  have hcfg : (cipherLoop E s).cfg = s.cfg := by rw [(cipherLoop_spec E s).2]
  have hstatus : (cipherLoop E s).status = s.status := by rw [(cipherLoop_spec E s).2]
  exact {
    cfg_wf := hcfg ▸ h.cfg_wf
    buf_wf := cipherLoop_keeps_wf E h.buf_wf
    buf_below := hcfg ▸ cipherLoop_keeps_below E h.buf_below hfit
    match_no_error := hstatus ▸ h.match_no_error }

/-! ## Commands -/

/-- The bytes a MIC append writes are the last four of its footprint. -/
theorem micAppend_keeps_inv (E : Block → Block → Block) {s : State} (h : s.Inv) (c0 aux : Block)
    (hfit : s.off.toNat + (s.len.toNat + 4) ≤ s.cfg.bufsz) :
    (memWrite (micAddress s) (micTag E c0 s) (s.setAux aux)).Inv := by
  refine memWrite_keeps_inv (setAux_keeps_inv h aux) ?_
  rw [length_micTag, micAddress, setAux_cfg, Nat.add_assoc]
  exact hfit

/-- A command whose checks have passed writes inside its footprint, and the footprint fits (R44). -/
theorem commandEffect_keeps_inv {i : Instr} {s : State} (h : s.Inv) (hok : checkError i s = none) :
    (commandEffect i s).Inv := by
  obtain ⟨-, hfit⟩ := (checkError_none_iff i s).1 hok
  cases i with
  | rdle16 | rdle32 | rdbe32 => exact finish_keeps_inv (setVal_keeps_inv h _) _
  | crc16 => exact finish_keeps_inv (setCrcr_keeps_inv h _) _
  | build | micver | mic0ver => exact finish_keeps_inv (setAux_keeps_inv h _) _
  | wrle16 | wrle32 | wrbe32 => exact finish_keeps_inv (memWrite_keeps_inv h (by simpa using hfit _ rfl)) _
  | micapp | mic0app => exact finish_keeps_inv (micAppend_keeps_inv _ h _ _ (hfit _ rfl)) _
  | cipher => exact finish_keeps_inv (cipherLoop_keeps_inv _ h (hfit _ rfl)) _
  | enc => exact finish_keeps_inv (memWrite_keeps_inv h (by simpa [Block.size] using hfit _ rfl)) _

theorem exec_keeps_inv (i : Instr) {s : State} (h : s.Inv) : ∃ t, exec i s = .next t ∧ t.Inv := by
  rcases exec_cases i s with ⟨c, -, he⟩ | ⟨hok, he⟩
  · exact ⟨_, he, raiseErr_keeps_inv h c⟩
  · exact ⟨_, he, commandEffect_keeps_inv h hok⟩

theorem runWord_keeps_inv (w : Word) {s : State} (h : s.Inv) : ∃ t, runWord w s = .next t ∧ t.Inv := by
  rcases runWord_cases w s with ⟨i, -, hw⟩ | ⟨e, -, hw⟩
  · rw [hw]
    exact exec_keeps_inv i h
  · exact ⟨_, hw, raiseErr_keeps_inv h .opcode⟩

/-! ## The port -/

@[simp] theorem statusWrite_matched (d : Word) (u : Status) :
    (statusWrite d u).matched = u.matched := by
  unfold statusWrite
  split <;> rfl

@[simp] theorem statusWrite_err (d : Word) (u : Status) : (statusWrite d u).err = u.err := by
  unfold statusWrite
  split <;> rfl

/-- The host can reach no field of the invariant but `STATUS`, and of that only `ERRS` (R16). -/
theorem storeReg_keeps_inv (r : Reg) (d : Word) {s : State} (h : s.Inv) : (storeReg r d s).Inv := by
  cases r with
  | status => exact setStatus_keeps_inv h (by simpa using h.match_no_error)
  | _ => exact h.congr rfl rfl rfl

theorem regWrite_keeps_inv (n : BitVec 6) (d : Word) {s : State} (h : s.Inv) :
    ∃ t, regWrite n d s = .next t ∧ t.Inv := by
  by_cases hn : n = 0
  · subst hn
    exact runWord_keeps_inv d h
  · exact ⟨_, regWrite_store hn d s, storeReg_keeps_inv _ d h⟩

/-- A host write at or above `BUFSZ` is lost (R42), so no byte is ever outside the buffer. -/
theorem bufWrite_keeps_inv (a : Nat) (b : Byte) {s : State} (h : s.Inv) : (bufWrite a b s).Inv := by
  rcases lt_or_ge a s.cfg.bufsz with ha | ha
  · rw [bufWrite_of_lt ha]
    exact memWrite_keeps_inv h ha
  · rwa [bufWrite_of_ge ha]

theorem transact_keeps_inv (x : Transaction) {s : State} (h : s.Inv) :
    ∃ t, transact x s = .next t ∧ t.Inv := by
  cases x with
  | regWrite n d => exact regWrite_keeps_inv n d h
  | regRead n => exact ⟨_, rfl, setReply_keeps_inv h _⟩
  | bufWrite a b => exact ⟨_, rfl, bufWrite_keeps_inv a b h⟩
  | bufRead a => exact ⟨_, rfl, setReply_keeps_inv h _⟩

/-- Reset keeps the parameters and forgets everything written (R160). -/
theorem applyReset_keeps_inv {s : State} (h : s.Inv) : (applyReset s).Inv where
  cfg_wf := h.cfg_wf
  buf_wf := reset_memory_wf.1
  buf_below := reset_memory_wf.2 _
  match_no_error _ := rfl

theorem perform_keeps_inv (x : Input) {s : State} (h : s.Inv) : ∃ t, perform x s = .next t ∧ t.Inv := by
  cases x with
  | host x => exact transact_keeps_inv x (setReply_keeps_inv h .done)
  | reset => exact ⟨_, rfl, applyReset_keeps_inv h⟩

/-! ## The step -/

theorem step_keeps_inv {s : State} (h : s.Inv) : ∃ t, step s = .next t ∧ t.Inv := by
  rcases step_cases s with ⟨-, hs⟩ | ⟨x, rest, -, hs⟩
  · exact ⟨s, hs, h⟩
  · rw [hs]
    exact perform_keeps_inv x (setInputs_keeps_inv h rest)

/-- Settles O8: every step from a state with the invariant answers a state with it, and the answer is the
only one. -/
theorem everyStepKeepsTheInvariant : Obligations.EveryStepKeepsTheInvariant := by
  intro s t h hstep
  obtain ⟨u, hu, hinv⟩ := step_keeps_inv h
  obtain rfl : u = t := Host.Outcome.next.inj (hu.symm.trans hstep)
  exact hinv

end Sys2Proof.Machine
end

section
/-!
Registers and state (spec/10_state.md): which register a number names, what a register access stores and
reads, what every step and every command leaves alone, what no command looks at, and the canonical form of
the buffer.
-/

namespace Sys2Proof.Machine

/-! ## What every step keeps: the parameters and the order of the inputs -/

/-- `t` has the parameters of `s` (R21) and the same inputs pending. -/
structure SameCfgAndInputs (s t : State) : Prop where
  cfg : t.cfg = s.cfg
  inputs : t.inputs = s.inputs

/-- The fields that hold no result, of a state that differs in results only. -/
theorem frame_of_eq_withResults {s t : State} (h : t = withResults s t) :
    t.off = s.off ∧ t.len = s.len ∧ t.addr = s.addr ∧ t.cnt = s.cnt ∧ t.dir = s.dir ∧
      t.disc = s.disc ∧ t.trail = s.trail ∧ t.key = s.key ∧ t.cfg = s.cfg ∧ t.resets = s.resets ∧
      t.inputs = s.inputs ∧ t.reply = s.reply := by
  rw [h]
  exact ⟨rfl, rfl, rfl, rfl, rfl, rfl, rfl, rfl, rfl, rfl, rfl, rfl⟩

theorem exec_sameCfgAndInputs (i : Instr) (s : State) :
    ∃ t, exec i s = .next t ∧ SameCfgAndInputs s t := by
  obtain ⟨t, he, hframe⟩ := exec_writes_results i s
  obtain ⟨-, -, -, -, -, -, -, -, hcfg, -, hinputs, -⟩ := frame_of_eq_withResults hframe
  exact ⟨t, he, hcfg, hinputs⟩

theorem runWord_sameCfgAndInputs (w : Word) (s : State) :
    ∃ t, runWord w s = .next t ∧ SameCfgAndInputs s t := by
  rcases runWord_cases w s with ⟨i, -, hw⟩ | ⟨e, -, hw⟩
  · rw [hw]
    exact exec_sameCfgAndInputs i s
  · exact ⟨_, hw, rfl, rfl⟩

theorem storeReg_sameCfgAndInputs (r : Reg) (d : Word) (s : State) :
    SameCfgAndInputs s (storeReg r d s) := by
  cases r <;> exact ⟨rfl, rfl⟩

theorem regWrite_sameCfgAndInputs (n : BitVec 6) (d : Word) (s : State) :
    ∃ t, regWrite n d s = .next t ∧ SameCfgAndInputs s t := by
  by_cases hn : n = 0
  · subst hn
    exact runWord_sameCfgAndInputs d s
  · exact ⟨_, regWrite_store hn d s, storeReg_sameCfgAndInputs _ d s⟩

theorem bufWrite_sameCfgAndInputs (a : Nat) (b : Byte) (s : State) :
    SameCfgAndInputs s (bufWrite a b s) := by
  rcases lt_or_ge a s.cfg.bufsz with ha | ha
  · rw [bufWrite_of_lt ha]
    exact ⟨rfl, rfl⟩
  · rw [bufWrite_of_ge ha]
    exact ⟨rfl, rfl⟩

theorem transact_sameCfgAndInputs (x : Transaction) (s : State) :
    ∃ t, transact x s = .next t ∧ SameCfgAndInputs s t := by
  cases x with
  | regWrite n d => exact regWrite_sameCfgAndInputs n d s
  | regRead n => exact ⟨_, rfl, rfl, rfl⟩
  | bufWrite a b => exact ⟨_, rfl, bufWrite_sameCfgAndInputs a b s⟩
  | bufRead a => exact ⟨_, rfl, rfl, rfl⟩

/-- A transaction and a reset (log 7) alike leave the inputs still to come to the steps after it. -/
theorem perform_sameCfgAndInputs (x : Input) (s : State) :
    ∃ t, perform x s = .next t ∧ SameCfgAndInputs s t := by
  cases x with
  | host x =>
    obtain ⟨t, ht, hcfg, hinputs⟩ := transact_sameCfgAndInputs x (s.setReply .done)
    exact ⟨t, ht, hcfg, hinputs⟩
  | reset => exact ⟨_, rfl, rfl, rfl⟩

/-- What every step does whatever its input is. -/
theorem step_takes_oldest_input (s : State) :
    ∃ t, step s = .next t ∧ t.cfg = s.cfg ∧ t.inputs = s.inputs.tail ∧ (s.inputs = [] → t = s) := by
  rcases step_cases s with ⟨hnone, hs⟩ | ⟨x, rest, hsome, hs⟩
  · exact ⟨s, hs, rfl, by rw [hnone, List.tail_nil], fun _ => rfl⟩
  · obtain ⟨t, ht, hcfg, hinputs⟩ := perform_sameCfgAndInputs x (s.setInputs rest)
    refine ⟨t, hs.trans ht, hcfg, ?_, fun hnone => ?_⟩
    · rw [hinputs, hsome, setInputs_inputs, List.tail_cons]
    · simp [hnone] at hsome

/-- Settles O5: the step takes the oldest input, and performing it leaves the others. -/
theorem everyStepAnswersAndTakesTheOldestInput :
    Obligations.EveryStepAnswersAndTakesTheOldestInput := by
  intro s
  obtain ⟨t, hstep, -, htail, hwait⟩ := step_takes_oldest_input s
  exact ⟨t, hstep, htail, hwait⟩

/-- Settles O6: the state every step answers has the same parameters, and it is the only answer. -/
theorem stepNeverChangesTheParameters : Obligations.StepNeverChangesTheParameters := by
  intro s t hstep
  obtain ⟨u, hu, hcfg, -⟩ := step_takes_oldest_input s
  obtain rfl : u = t := Host.Outcome.next.inj (hu.symm.trans hstep)
  exact hcfg

/-! ## What each command writes -/

@[simp] theorem memWrite_val (a : Nat) (x : List Byte) (s : State) : (memWrite a x s).val = s.val := rfl
@[simp] theorem memWrite_crcr (a : Nat) (x : List Byte) (s : State) : (memWrite a x s).crcr = s.crcr := rfl
@[simp] theorem memWrite_aux (a : Nat) (x : List Byte) (s : State) : (memWrite a x s).aux = s.aux := rfl

@[simp] theorem finish_val (m : Bool) (s : State) : (finish m s).val = s.val := rfl
@[simp] theorem finish_crcr (m : Bool) (s : State) : (finish m s).crcr = s.crcr := rfl
@[simp] theorem finish_aux (m : Bool) (s : State) : (finish m s).aux = s.aux := rfl

@[simp] theorem cipherLoop_val (E : Block → Block → Block) (s : State) :
    (cipherLoop E s).val = s.val := by
  rw [(cipherLoop_spec E s).2]

@[simp] theorem cipherLoop_crcr (E : Block → Block → Block) (s : State) :
    (cipherLoop E s).crcr = s.crcr := by
  rw [(cipherLoop_spec E s).2]

/-- R12: `VAL` is the result of the three codec reads. -/
theorem commandEffect_val {i : Instr} (hi : i ∉ [Instr.rdle16, .rdle32, .rdbe32]) (s : State) :
    (commandEffect i s).val = s.val := by
  cases i with
  | rdle16 | rdle32 | rdbe32 => exact absurd (by decide) hi
  | _ => simp [commandEffect]

/-- R12: `CRCR` is the result of `CRC16`. -/
theorem commandEffect_crcr {i : Instr} (hi : i ≠ .crc16) (s : State) :
    (commandEffect i s).crcr = s.crcr := by
  cases i with
  | crc16 => exact absurd rfl hi
  | _ => simp [commandEffect]

/-- R18: the commands that leave a block in `AUX`. -/
theorem commandEffect_aux {i : Instr} (hi : i ∉ [Instr.build, .micapp, .micver, .cipher]) (s : State) :
    (commandEffect i s).aux = s.aux := by
  cases i with
  | build | micapp | micver | cipher => exact absurd (by decide) hi
  | _ => simp [commandEffect]

/-- R25: every other command reads `BUF` at most. -/
theorem readByte_commandEffect {i : Instr}
    (hi : i ∉ [Instr.wrle16, .wrle32, .wrbe32, .micapp, .mic0app, .cipher, .enc]) (s : State) (a : Nat) :
    readByte (commandEffect i s) a = readByte s a := by
  cases i with
  | wrle16 | wrle32 | wrbe32 | micapp | mic0app | cipher | enc => exact absurd (by decide) hi
  | _ => rfl

/-- Settles O53: an error writes `STATUS` alone; an effect writes results alone, each result by its own
commands. -/
theorem commandsWriteOnlyTheirResults : Obligations.CommandsWriteOnlyTheirResults := by
  intro i s
  rcases exec_cases i s with ⟨c, -, he⟩ | ⟨-, he⟩
  · exact ⟨_, he, rfl, rfl, rfl, rfl, rfl, rfl, rfl, rfl, rfl, rfl, rfl, rfl, fun _ => rfl, fun _ => rfl,
      fun _ => rfl, fun _ _ => rfl⟩
  · obtain ⟨hoff, hlen, haddr, hcnt, hdir, hdisc, htrail, hkey, hcfg, hresets, hinputs, hreply⟩ :=
      frame_of_eq_withResults (commandEffect_writes_results i s)
    exact ⟨_, he, hoff, hlen, haddr, hcnt, hdir, hdisc, htrail, hkey, hcfg, hresets, hinputs, hreply,
      fun hi => commandEffect_val hi s, fun hi => commandEffect_crcr hi s,
      fun hi => commandEffect_aux hi s, fun hi => readByte_commandEffect hi s⟩

/-! ## What no command looks at -/

/-- The loop of `CIPHER` neither reads nor writes `STATUS`. -/
theorem cipherLoop_setStatus (E : Block → Block → Block) (s : State) (u : Status) :
    cipherLoop E (s.setStatus u) = (cipherLoop E s).setStatus u :=
  List.foldl_hom (State.setStatus · u) fun _ _ => rfl

@[simp] theorem cipherLoop_status (E : Block → Block → Block) (s : State) :
    (cipherLoop E s).status = s.status := by
  rw [(cipherLoop_spec E s).2]

/-- R14: the one thing of the old `STATUS` that the effect of a command keeps is the sticky flag. -/
theorem commandEffect_setStatus (i : Instr) (s : State) (u : Status) :
    commandEffect i (s.setStatus u) =
      (commandEffect i s).setStatus (statusAfterEnd (commandEffect i s).status.matched u) := by
  cases i with
  | cipher =>
    show finish false (cipherLoop blockCipher (s.setStatus u)) = _
    rw [cipherLoop_setStatus, finish, setStatus_status]
    rfl
  | _ => rfl

/-- The status an effect leaves shows no error. -/
theorem commandEffect_status (i : Instr) (s : State) :
    (commandEffect i s).status = statusAfterEnd (commandEffect i s).status.matched s.status := by
  cases i with
  | cipher =>
    show statusAfterEnd false (cipherLoop blockCipher s).status = _
    rw [cipherLoop_status]
    rfl
  | _ => rfl

/-- Settles O54: the checks do not look at `STATUS`; an error replaces all of it, and an effect depends on
it by the sticky flag alone. -/
theorem commandsDoNotReadTheFlags : Obligations.CommandsDoNotReadTheFlags := by
  intro i s u
  have hcheck : checkError i (s.setStatus u) = checkError i s := checkError_congr i rfl rfl rfl
  rcases exec_cases i s with ⟨c, herr, he⟩ | ⟨hok, he⟩
  · exact ⟨_, _, he, exec_of_error (hcheck.trans herr), rfl, rfl, rfl⟩
  · have he' := exec_of_ok (hcheck.trans hok)
    rw [commandEffect_setStatus] at he'
    have herr := congrArg Status.err (commandEffect_status i s)
    exact ⟨_, _, he, he', rfl, rfl, herr.symm⟩

/-- R17, R25: the effect of a command without the block cipher neither reads nor writes `KEY`. -/
theorem commandEffect_withKey {i : Instr} (hi : callsCipher i = false) (s : State) (k : Block) :
    commandEffect i { s with key := k } = { commandEffect i s with key := k } := by
  cases i with
  | micapp | micver | mic0app | mic0ver | cipher | enc => exact absurd hi (by decide)
  | _ => rfl

/-- Settles O55: neither the checks nor the effect of such a command look at `KEY`. -/
theorem commandsWithoutCipherIgnoreTheKey : Obligations.CommandsWithoutCipherIgnoreTheKey := by
  intro i s k hi
  have hcheck : checkError i { s with key := k } = checkError i s := checkError_congr i rfl rfl rfl
  rcases exec_cases i s with ⟨c, herr, he⟩ | ⟨hok, he⟩
  · exact ⟨_, he, exec_of_error (hcheck.trans herr)⟩
  · have he' := exec_of_ok (hcheck.trans hok)
    rw [commandEffect_withKey hi] at he'
    exact ⟨_, he, he'⟩

/-! ## The canonical form of the buffer -/

/-- Below its first address a canonical buffer holds nothing. -/
theorem lookup_eq_none_of_forall_lt {m : Memory} {a : Nat} (h : ∀ c ∈ m, a < c.1) :
    m.lookup a = none := by
  induction m with
  | nil => rfl
  | cons c m ih =>
    obtain ⟨x, b⟩ := c
    have hx : a < x := h (x, b) List.mem_cons_self
    rw [lookup_cons, if_neg hx.ne]
    exact ih fun d hd => h d (List.mem_cons_of_mem _ hd)

@[simp] theorem lookup_cons_self (x : Nat) (b : Byte) (m : Memory) :
    Memory.lookup ((x, b) :: m) x = some b := by
  rw [lookup_cons, if_pos rfl]

/-- The first address of a canonical buffer is the least that holds a byte. -/
theorem head_le_of_lookup_eq_some {x a : Nat} {b c : Byte} {m : Memory} (h : Memory.wf ((x, b) :: m))
    (ha : Memory.lookup ((x, b) :: m) a = some c) : x ≤ a := by
  by_contra hlt
  have hnone : Memory.lookup ((x, b) :: m) a = none := by
    refine lookup_eq_none_of_forall_lt fun d hd => ?_
    rcases List.mem_cons.1 hd with rfl | hd
    · exact not_le.1 hlt
    · exact (not_le.1 hlt).trans ((List.pairwise_cons.1 h).1 d hd)
  simp [hnone] at ha

/-- A canonical buffer's tail holds what the whole holds, but for the first address. -/
theorem lookup_tail {x : Nat} {b : Byte} {m : Memory} (h : Memory.wf ((x, b) :: m)) (a : Nat) :
    m.lookup a = if a = x then none else Memory.lookup ((x, b) :: m) a := by
  by_cases ha : a = x
  · rw [if_pos ha, ha]
    exact lookup_eq_none_of_forall_lt (List.pairwise_cons.1 h).1
  · rw [if_neg ha, lookup_cons, if_neg ha]

theorem eq_of_lookup_eq {m m' : Memory} (h : m.wf) (h' : m'.wf) (heq : ∀ a, m.lookup a = m'.lookup a) :
    m = m' := by
  induction m generalizing m' with
  | nil =>
    cases m' with
    | nil => rfl
    | cons c m' =>
      obtain ⟨y, b'⟩ := c
      simpa using heq y
  | cons c m ih =>
    obtain ⟨x, b⟩ := c
    cases m' with
    | nil => simpa using heq x
    | cons c' m' =>
      obtain ⟨y, b'⟩ := c'
      have hx : Memory.lookup ((y, b') :: m') x = some b := by rw [← heq, lookup_cons_self]
      have hy : Memory.lookup ((x, b) :: m) y = some b' := by rw [heq, lookup_cons_self]
      obtain rfl : x = y := le_antisymm (head_le_of_lookup_eq_some h hy) (head_le_of_lookup_eq_some h' hx)
      obtain rfl : b' = b := by simpa using hx
      have htail : m = m' := by
        refine ih (List.pairwise_cons.1 h).2 (List.pairwise_cons.1 h').2 fun a => ?_
        rw [lookup_tail h, lookup_tail h', heq]
      rw [htail]

/-- Settles O57, by induction on the first buffer: the two first addresses are the least that hold a byte,
so they are one, and the tails hold the same. -/
theorem canonicalBuffersAreEqualAsData : Obligations.CanonicalBuffersAreEqualAsData :=
  fun _ _ h h' heq => eq_of_lookup_eq h h' heq

/-! ## A write of a command word -/

theorem runWord_of_decode {w : Word} {i : Instr} (h : decode w = .ok i) (s : State) :
    runWord w s = exec i s := by
  rw [runWord, h]

/-- Settles O4: the step performs the write, the write runs the word, the word is the command. -/
theorem stepRunsTheDecodedCommand : Obligations.StepRunsTheDecodedCommand := by
  intro s w i rest hinputs hdecode
  rw [step_cons hinputs, perform_host, transact_regWrite, regWrite_cmd, runWord_of_decode hdecode]
  rfl

/-! ## The state after reset -/

@[simp] theorem block_zero_get (k : Nat) : Block.zero.get k = 0 := by
  simp only [Block.get, Block.zero, List.getD_eq_getElem?_getD, List.getElem?_replicate]
  split <;> rfl

/-- Settles O7: the default `BUFSZ` is within its limits, and the empty buffer is canonical. -/
theorem resetStateSatisfiesTheInvariant : Obligations.ResetStateSatisfiesTheInvariant where
  cfg_wf := by decide
  buf_wf := reset_memory_wf.1
  buf_below := reset_memory_wf.2 _
  match_no_error _ := rfl

/-- Settles O9: each register has its value by definition, and no byte is listed in the buffer. -/
theorem resetStateValues : Obligations.ResetStateValues :=
  ⟨rfl, rfl, rfl, rfl, rfl, rfl, rfl, rfl, rfl, by decide,
    fun k _ => ⟨block_zero_get k, block_zero_get k⟩, fun _ => rfl⟩

/-! ## The register map -/

/-- R11: the number of a key register. -/
theorem regOf_key_number (k : Fin 16) : regOf (0x10 + BitVec.ofNat 6 k.val) = .key k := by
  revert k
  decide

/-- R11: the number of an `AUX` register. -/
theorem regOf_aux_number (k : Fin 16) : regOf (0x20 + BitVec.ofNat 6 k.val) = .aux k := by
  revert k
  decide

/-- R24: the numbers that name no register. -/
theorem regOf_eq_reserved_self_iff (n : BitVec 6) :
    regOf n = .reserved n ↔ (0x0B ≤ n.toNat ∧ n.toNat ≤ 0x0F) ∨ 0x30 ≤ n.toNat := by
  revert n
  decide

/-- Only the register's own number names it. -/
theorem eq_numberOf_of_regOf_eq {n : BitVec 6} {r : Reg} (h : regOf n = r) : n = numberOf r := by
  rw [← h, numberOf_regOf]

/-- R11: the key registers are the numbers 0x10 to 0x1F. -/
theorem exists_regOf_eq_key_iff (n : BitVec 6) :
    (∃ k, regOf n = .key k) ↔ 0x10 ≤ n.toNat ∧ n.toNat ≤ 0x1F := by
  constructor
  · rintro ⟨k, hk⟩
    have hn : n = 0x10 + BitVec.ofNat 6 k.val := eq_numberOf_of_regOf_eq hk
    have := k.isLt
    bv_omega
  · rintro ⟨hlo, hhi⟩
    refine ⟨⟨n.toNat - 0x10, by omega⟩, ?_⟩
    rw [← regOf_key_number]
    congr 1
    bv_omega

/-- R11: the `AUX` registers are the numbers 0x20 to 0x2F. -/
theorem exists_regOf_eq_aux_iff (n : BitVec 6) :
    (∃ k, regOf n = .aux k) ↔ 0x20 ≤ n.toNat ∧ n.toNat ≤ 0x2F := by
  constructor
  · rintro ⟨k, hk⟩
    have hn : n = 0x20 + BitVec.ofNat 6 k.val := eq_numberOf_of_regOf_eq hk
    have := k.isLt
    bv_omega
  · rintro ⟨hlo, hhi⟩
    refine ⟨⟨n.toNat - 0x20, by omega⟩, ?_⟩
    rw [← regOf_aux_number]
    congr 1
    bv_omega

/-- R24: a reserved register keeps the number it was reached by. -/
theorem exists_regOf_eq_reserved_iff (n : BitVec 6) :
    (∃ m, regOf n = .reserved m) ↔ (0x0B ≤ n.toNat ∧ n.toNat ≤ 0x0F) ∨ 0x30 ≤ n.toNat := by
  rw [← regOf_eq_reserved_self_iff]
  constructor
  · rintro ⟨m, hm⟩
    have hn : n = m := eq_numberOf_of_regOf_eq hm
    rw [hm, hn]
  · exact fun h => ⟨n, h⟩

/-- Settles O11: one fact per clause about the register map. -/
theorem registerNumbersNameOneRegisterEach : Obligations.RegisterNumbersNameOneRegisterEach :=
  ⟨numberOf_regOf, exists_regOf_eq_key_iff, exists_regOf_eq_aux_iff, exists_regOf_eq_reserved_iff⟩

/-! ## Register accesses -/

/-- R23: what a register of width `w` stores. -/
theorem toNat_lowBits (d : Word) (w : Nat) : (d.extractLsb' 0 w).toNat = d.toNat % 2 ^ w := by
  simp

/-- R23: what a register of width `w` reads back. -/
theorem toNat_lowBits_zeroExtended (d : Word) {w : Nat} (hw : w ≤ 32) :
    ((d.extractLsb' 0 w).setWidth 32).toNat = d.toNat % 2 ^ w := by
  rw [BitVec.toNat_setWidth_of_le hw, toNat_lowBits]

@[simp] theorem block_get_set_self (x : Block) {k : Nat} (hk : k < 16) (b : Byte) :
    (x.set k b).get k = b := by
  simp [Block.get, Block.set, x.size, hk]

theorem block_get_set_other (x : Block) {j k : Nat} (hjk : j ≠ k) (b : Byte) :
    (x.set k b).get j = x.get j := by
  simp [Block.get, Block.set, hjk.symm]

/-- R17, R23: a write to a key register stores the low byte in that register alone. -/
theorem regWrite_key (k : Fin 16) (d : Word) (s : State) :
    regWrite (0x10 + BitVec.ofNat 6 k.val) d s =
      .next { s with key := s.key.set k.val (d.extractLsb' 0 8) } := by
  have hn : (0x10 + BitVec.ofNat 6 k.val : BitVec 6) ≠ 0 := by
    have := k.isLt
    bv_omega
  rw [regWrite_store hn, regOf_key_number]
  rfl

/-- Settles O12: each register's write by `regWrite_store`, and its width by the two facts about low
bits. -/
theorem operandRegisterKeepsLowBitsAndReadsZeroExtended :
    Obligations.OperandRegisterKeepsLowBitsAndReadsZeroExtended := by
  intro s d
  refine ⟨?off, ?len, ?val, ?addr, ?cnt, ?dir, ?disc, ?trail, fun k => ?key, rfl, fun k => ?aux⟩
  case off | len =>
    exact ⟨_, regWrite_store (by decide) d s, rfl, toNat_lowBits d 16,
      toNat_lowBits_zeroExtended d (by decide)⟩
  case val | addr | cnt => exact ⟨_, regWrite_store (by decide) d s, rfl, rfl⟩
  case dir =>
    exact ⟨_, regWrite_store (by decide) d s, rfl, toNat_lowBits d 1,
      toNat_lowBits_zeroExtended d (by decide)⟩
  case disc | trail =>
    exact ⟨_, regWrite_store (by decide) d s, rfl, toNat_lowBits d 8,
      toNat_lowBits_zeroExtended d (by decide)⟩
  case key =>
    refine ⟨_, regWrite_key k d s, rfl, ?_, fun j _ hj => block_get_set_other _ hj _, ?_⟩
    · rw [block_get_set_self _ k.isLt, toNat_lowBits]
    · rw [regOf_key_number]
      rfl
  case aux =>
    rw [regOf_aux_number]
    rfl

/-- Settles O13: such a number names no register, so nothing is stored and 0 is read. -/
theorem reservedRegisterReadsZeroAndIgnoresWrites :
    Obligations.ReservedRegisterReadsZeroAndIgnoresWrites := by
  intro n hn d s
  have hreg : regOf n = .reserved n := (regOf_eq_reserved_self_iff n).2 hn
  have hne : n ≠ 0 := by
    rintro rfl
    simp at hn
  refine ⟨?_, ?_⟩
  · rw [regWrite_store hne, hreg]
    rfl
  · rw [hreg]
    rfl

/-! ## `STATUS` as a word -/

theorem statusWord_bit_match (u : Status) : (statusWord u).getLsbD 0 = u.matched := by
  simp [statusWord]

theorem statusWord_bit_errs (u : Status) : (statusWord u).getLsbD 1 = u.errs := by
  simp [statusWord]

/-- R16: bits 3:2 are reserved. -/
theorem statusWord_bits_reserved (u : Status) :
    (statusWord u).getLsbD 2 = false ∧ (statusWord u).getLsbD 3 = false := by
  simp [statusWord]

/-- R16: from bit 4 up there is the error code and nothing else. -/
theorem statusWord_div_sixteen (u : Status) : (statusWord u).toNat / 16 = (errCode u.err).toNat := by
  obtain ⟨m, e, c⟩ := u
  revert m e
  rcases c with - | - | - | - <;> decide

/-- Settles O15: register 0x01 reads as the word of `STATUS`. -/
theorem statusReadsItsThreeFields : Obligations.StatusReadsItsThreeFields := by
  intro s
  have hread : loadReg (regOf 0x01) s = statusWord s.status := rfl
  obtain ⟨hbit2, hbit3⟩ := statusWord_bits_reserved s.status
  rw [hread, statusWord_div_sixteen]
  refine ⟨statusWord_bit_match _, statusWord_bit_errs _, ?_, hbit2, hbit3⟩
  rcases s.status.err with - | - | - | - <;> rfl

/-- R16: writing 1 to bit 1 clears `ERRS`; no other bit of the datum is looked at. -/
theorem statusWrite_eq (d : Word) (u : Status) :
    statusWrite d u =
      { matched := u.matched, errs := u.errs && !d.getLsbD 1, err := u.err } := by
  unfold statusWrite
  cases d.getLsbD 1 <;> simp

/-- Settles O16: register 0x01 is written by `statusWrite`, which clears at most `ERRS`. -/
theorem statusWriteClearsOnlyTheStickyFlag : Obligations.StatusWriteClearsOnlyTheStickyFlag := by
  intro s d
  rw [regWrite_store (by decide), ← statusWrite_eq]
  rfl

end Sys2Proof.Machine
end

section
/-!
The host port (spec/20_memory.md R40 to R43): what a register write other than to `CMD` leaves alone, and
the accesses of `BUF`.
-/

namespace Sys2Proof.Machine

/-! ## What a stored register leaves alone -/

@[simp] theorem readByte_storeReg (r : Reg) (d : Word) (s : State) (a : Nat) :
    readByte (storeReg r d s) a = readByte s a := by
  cases r <;> rfl

@[simp] theorem storeReg_aux (r : Reg) (d : Word) (s : State) : (storeReg r d s).aux = s.aux := by
  cases r <;> rfl

@[simp] theorem storeReg_crcr (r : Reg) (d : Word) (s : State) : (storeReg r d s).crcr = s.crcr := by
  cases r <;> rfl

/-- R16: of `STATUS` a write reaches the sticky flag alone. -/
@[simp] theorem storeReg_status_matched (r : Reg) (d : Word) (s : State) :
    (storeReg r d s).status.matched = s.status.matched := by
  cases r with
  | status => exact statusWrite_matched d s.status
  | _ => rfl

@[simp] theorem storeReg_status_err (r : Reg) (d : Word) (s : State) :
    (storeReg r d s).status.err = s.status.err := by
  cases r with
  | status => exact statusWrite_err d s.status
  | _ => rfl

theorem storeReg_val_of_ne {r : Reg} (hr : r ≠ .val) (d : Word) (s : State) :
    (storeReg r d s).val = s.val := by
  cases r with
  | val => exact absurd rfl hr
  | _ => rfl

/-- Settles O17: such a write is `storeReg`, which writes no result but `VAL`, and `VAL` by its own number
alone. -/
theorem writeToOtherThanCmdFrame : Obligations.WriteToOtherThanCmdFrame := by
  intro n d s hn
  refine ⟨_, regWrite_store hn d s, readByte_storeReg _ d s, storeReg_aux _ d s, storeReg_crcr _ d s,
    storeReg_status_matched _ d s, storeReg_status_err _ d s, fun hval => ?_⟩
  have hreg : regOf n ≠ .val := fun h => hval (eq_numberOf_of_regOf_eq h)
  exact storeReg_val_of_ne hreg d s

/-- Settles O14: the number names `CRCR` or a byte of `AUX`, and `storeReg` stores nothing there. -/
theorem readOnlyRegisterIgnoresWrites : Obligations.ReadOnlyRegisterIgnoresWrites := by
  intro n hn d s
  have hne : n ≠ 0 := by
    rintro rfl
    simp at hn
  rw [regWrite_store hne]
  rcases hn with hcrcr | haux
  · obtain rfl : n = 0x05 := BitVec.eq_of_toNat_eq hcrcr
    rfl
  · obtain ⟨k, hk⟩ := (exists_regOf_eq_aux_iff n).2 haux
    rw [hk]
    rfl

/-! ## Reads at the step -/

/-- The step on a transaction: it is performed with its input taken and a write's answer in place. -/
theorem step_host {s : State} {x : Transaction} {rest : List Input} (h : s.inputs = .host x :: rest) :
    step s = transact x ((s.setInputs rest).setReply .done) := by
  rw [step_cons h, perform_host]

/-- A register's value depends neither on what is still to come nor on the last answer. -/
@[simp] theorem loadReg_setInputs (r : Reg) (s : State) (l : List Input) :
    loadReg r (s.setInputs l) = loadReg r s := by
  cases r <;> rfl

@[simp] theorem loadReg_setReply (r : Reg) (s : State) (x : Reply) :
    loadReg r (s.setReply x) = loadReg r s := by
  cases r <;> rfl

/-- R15, R17: `CMD` and the key registers read as 0. -/
theorem loadReg_regOf_cmd_or_key {n : BitVec 6} (hn : n = 0 ∨ (0x10 ≤ n.toNat ∧ n.toNat ≤ 0x1F))
    (s : State) : loadReg (regOf n) s = 0 := by
  rcases hn with rfl | hkey
  · rfl
  · obtain ⟨k, hk⟩ := (exists_regOf_eq_key_iff n).2 hkey
    rw [hk]
    rfl

/-- Settles O18: the step performs the read, and the value read is that of the state before the step. -/
theorem registerReadChangesNoState : Obligations.RegisterReadChangesNoState := by
  intro s n rest hinputs
  refine ⟨?_, fun hn => loadReg_regOf_cmd_or_key hn s⟩
  rw [step_host hinputs, transact_regRead, regRead, loadReg_setReply, loadReg_setInputs]
  rfl

/-! ## Accesses of `BUF` -/

/-- Bytes written change no field but the buffer. -/
theorem sameButBuf_memWrite (a : Nat) (x : List Byte) (s : State) : SameButBuf s (memWrite a x s) := rfl

/-- Bytes written change no byte outside their range. -/
theorem sameOutside_memWrite (a : Nat) (x : List Byte) (s : State) :
    SameOutside a x.length s (memWrite a x s) :=
  fun _ hy => readByte_memWrite_outside s hy

/-- Settles O19: below `BUFSZ` the access is a write of one byte, at or above it nothing. -/
theorem bufWriteStoresOneByteOrNothing : Obligations.BufWriteStoresOneByteOrNothing := by
  intro s a b
  rw [transact_bufWrite]
  refine ⟨fun ha => ?_, fun ha => ?_⟩
  · rw [bufWrite_of_lt ha]
    have hread : readByte (memWrite a [b] s) a = b :=
      readByte_memWrite_inside s (x := [b]) (k := 0) Nat.zero_lt_one
    exact ⟨_, rfl, sameButBuf_memWrite a [b] s, hread, sameOutside_memWrite a [b] s⟩
  · rw [bufWrite_of_ge ha]

/-- Settles O20: the step performs the read, on a state with the same buffer and the same `BUFSZ`. -/
theorem bufReadAnswersTheByteOrZero : Obligations.BufReadAnswersTheByteOrZero := by
  intro s a rest hinputs
  rw [step_host hinputs, transact_bufRead, bufRead, setReply_cfg, setInputs_cfg, readByte_setReply,
    readByte_setInputs]
  refine ⟨fun ha => ?_, fun ha => ?_⟩
  · rw [if_pos ha]
    rfl
  · rw [if_neg ha.not_gt]
    rfl

end Sys2Proof.Machine
end

section
/-!
Decode and encode (spec/30_encoding.md R60 to R65): every word is put together again from the fields the
decoder looks at, so no bit of it is dropped, and a word that is no command's reports `ERR_OPCODE`.
-/

namespace Sys2Proof

/-! ## Words from their fields -/

/-- R60: a word is its upper bits, its unit and its `fn`. -/
theorem word_eq_fields (w : Word) :
    w = w.extractLsb' 8 24 ++ w.extractLsb' 4 4 ++ w.extractLsb' 0 4 := by
  have hupper : w.extractLsb' 8 24 ++ w.extractLsb' 4 4 = w.extractLsb' 4 28 :=
    BitVec.extractLsb'_append_extractLsb'_eq_extractLsb' rfl
  have hall : w.extractLsb' 4 28 ++ w.extractLsb' 0 4 = w.extractLsb' 0 32 :=
    BitVec.extractLsb'_append_extractLsb'_eq_extractLsb' rfl
  rw [hupper, hall, BitVec.extractLsb'_eq_self]

/-- R61: the `fn` of the codec is the bit that must be 0, `wr` and `sel`. -/
theorem fn_eq_codec_fields (fn : BitVec 4) :
    fn = fn.extractLsb' 3 1 ++ fn.extractLsb' 2 1 ++ fn.extractLsb' 0 2 := by
  revert fn
  decide

/-- R61: the `fn` of the MIC engine is the bits that must be 0, `nob0` and `ver`. -/
theorem fn_eq_mic_fields (fn : BitVec 4) :
    fn = fn.extractLsb' 2 2 ++ fn.extractLsb' 1 1 ++ fn.extractLsb' 0 1 := by
  revert fn
  decide

/-! ## Decode and encode -/

/-- R63: every command word is legal. -/
theorem decode_encode (i : Instr) : decode (encode i) = .ok i := by
  cases i <;> decide

/-- R61: in each legal case the fields are numbers, and together they are the command's `fn`. -/
theorem encode_of_decodeCodec {fn : BitVec 4} {i : Instr} (h : decodeCodec fn = .ok i) :
    encode i = 0#24 ++ 0#4 ++ fn := by
  rw [fn_eq_codec_fields fn]
  unfold decodeCodec at h
  split at h
  all_goals cases h
  all_goals simp only [*]; rfl

theorem encode_of_decodeMic {fn : BitVec 4} {i : Instr} (h : decodeMic fn = .ok i) :
    encode i = 0#24 ++ 3#4 ++ fn := by
  rw [fn_eq_mic_fields fn]
  unfold decodeMic at h
  split at h
  all_goals cases h
  all_goals simp only [*]; rfl

/-- R61: the opcode of a command is the unit and the `fn` it was decoded from. -/
theorem encode_of_decodeOpcode {unit fn : BitVec 4} {i : Instr} (h : decodeOpcode unit fn = .ok i) :
    encode i = 0#24 ++ unit ++ fn := by
  unfold decodeOpcode at h
  split at h
  next => exact encode_of_decodeCodec h
  next =>
    split_ifs at h with hfn
    cases h
    rw [hfn]
    rfl
  next =>
    split_ifs at h with hfn
    cases h
    rw [hfn]
    rfl
  next => exact encode_of_decodeMic h
  next =>
    split_ifs at h with hfn hfn
    all_goals cases h; rw [hfn]; rfl
  next => cases h

/-- R62: a legal word is the word of the command it names. -/
theorem encode_of_decode {w : Word} {i : Instr} (h : decode w = .ok i) : encode i = w := by
  unfold decode at h
  split at h
  next hupper =>
    have hzero : 0#24 = w.extractLsb' 8 24 := hupper.symm
    rw [encode_of_decodeOpcode h, hzero, ← word_eq_fields]
  next => cases h

/-- Settles O1: decoding each command's word gives the command, and the fields of a legal word leave it no
other value. -/
theorem decodeAndEncodeAgree : Obligations.DecodeAndEncodeAgree :=
  ⟨decode_encode, fun _ _ h => (encode_of_decode h).symm⟩

/-- Settles O2: the six legal words are command words; of the other three, two have a reserved opcode and
one a non-zero upper bit. -/
theorem writtenOutWordsDecode : Obligations.WrittenOutWordsDecode :=
  ⟨decode_encode .rdle16, decode_encode .wrbe32, decode_encode .crc16, decode_encode .build,
    decode_encode .mic0app, decode_encode .enc, by decide, by decide, by decide⟩

namespace Machine

/-- Settles O3: such a word decodes to no command, since it would be that command's word. -/
theorem illegalWordReportsErrOpcode : Obligations.IllegalWordReportsErrOpcode := by
  intro w s hillegal
  refine ⟨?_, by decide⟩
  rcases runWord_cases w s with ⟨i, hdecode, -⟩ | ⟨e, -, hw⟩
  · exact absurd (encode_of_decode hdecode).symm (hillegal i)
  · rw [hw, raiseErr_eq]

end Machine

end Sys2Proof
end

section
/-!
Transaction sequences (spec/30_encoding.md R71): runs of steps that take the writes of `ldkey` and of
`ldbuf`, by induction on the writes.
-/

namespace Sys2Proof.Machine

/-! ## Runs -/

/-- A run of one step more is that step and then the run. -/
theorem run_succ_of_step {s t : State} (h : step s = .next t) (n : Nat) :
    Host.Core.run core (n + 1) s = Host.Core.run core n t := by
  have hcore : core.step s = .next t := h
  simp only [Host.Core.run, hcore]

/-- A step that takes an input forgets the last answer. -/
theorem step_setReply {s : State} {x : Input} {rest : List Input} (h : s.inputs = x :: rest) (r : Reply) :
    step (s.setReply r) = step s := by
  rw [step_cons h, step_cons (s := s.setReply r) h]
  cases x <;> rfl

/-- The state in which a write has been answered and these inputs are still to come (log 2). -/
def State.answered (s : State) (l : List Input) : State := (s.setInputs l).setReply .done

/-- Where a sequence of writes begins: what the port answered before does not matter. -/
theorem run_inputs_eq_run_answered (s : State) (x : Input) (rest : List Input) (n : Nat) :
    Host.Core.run core (n + 1) { s with inputs := x :: rest } =
      Host.Core.run core (n + 1) (s.answered (x :: rest)) := by
  have hcore : core.step (s.answered (x :: rest)) = core.step { s with inputs := x :: rest } :=
    step_setReply (s := { s with inputs := x :: rest }) rfl .done
  simp only [Host.Core.run, hcore]

/-! ## `ldkey` -/

/-- One write of `ldkey`: byte `j` of the key to its register. -/
def keyWrite (k : Block) (j : Nat) : Input := wr (.key (Fin.ofNat 16 j)) ((k.get j).setWidth 32)

/-- The key after that write, over a key `x`. -/
def storeKeyByte (k x : Block) (j : Nat) : Block := x.set (j % 16) (k.get j)

theorem ldkey_eq (k : Block) : ldkey k = (List.range 16).map (keyWrite k) := rfl

theorem step_keyWrite (k : Block) (j : Nat) (s : State) (rest : List Input) :
    step (s.answered (keyWrite k j :: rest)) =
      .next ({ s with key := storeKeyByte k s.key j }.answered rest) := by
  have hlow : ((k.get j).setWidth 32).extractLsb' 0 8 = k.get j := by
    apply BitVec.eq_of_toNat_eq
    rw [toNat_lowBits, BitVec.toNat_setWidth_of_le (by decide)]
    exact Nat.mod_eq_of_lt (k.get j).isLt
  rw [step_host (rest := rest) rfl]
  refine (regWrite_key (Fin.ofNat 16 j) _ _).trans ?_
  rw [hlow]
  rfl

theorem run_keyWrites (k : Block) (js : List Nat) (s : State) (rest : List Input) :
    Host.Core.run core js.length (s.answered (js.map (keyWrite k) ++ rest)) =
      .next ({ s with key := js.foldl (storeKeyByte k) s.key }.answered rest) := by
  induction js generalizing s with
  | nil => rfl
  | cons j js ih => exact (run_succ_of_step (step_keyWrite k j s _) _).trans (ih _)

theorem block_ext_get {x y : Block} (h : ∀ j, j < 16 → x.get j = y.get j) : x = y := by
  apply block_ext
  apply List.ext_getElem (by rw [x.size, y.size])
  intro j hx _
  have hj : j < 16 := x.size ▸ hx
  rw [← block_get_eq x hj, ← block_get_eq y hj, h j hj]

/-- After the first `n` bytes are stored, those are the key's and the others are as before. -/
theorem get_foldl_storeKeyByte (k x : Block) {n : Nat} (hn : n ≤ 16) (j : Nat) :
    ((List.range n).foldl (storeKeyByte k) x).get j = if j < n then k.get j else x.get j := by
  induction n with
  | zero => rfl
  | succ n ih =>
    rw [List.range_succ, List.foldl_append, List.foldl_cons, List.foldl_nil, storeKeyByte,
      Nat.mod_eq_of_lt (by omega)]
    by_cases hj : j = n
    · subst hj
      rw [block_get_set_self _ (by omega), if_pos (by omega)]
    · rw [block_get_set_other _ hj, ih (by omega)]
      exact if_congr (by omega) rfl rfl

/-- Sixteen bytes stored leave nothing of the old key. -/
theorem foldl_storeKeyByte_sixteen (k x : Block) : (List.range 16).foldl (storeKeyByte k) x = k :=
  block_ext_get fun j hj => by rw [get_foldl_storeKeyByte k x le_rfl, if_pos hj]

/-- Settles O21, by induction on the key writes; the sixteen of them give every byte of `KEY`. -/
theorem ldkeyLoadsTheKey : Obligations.LdkeyLoadsTheKey := by
  intro s k rest
  have hrun := run_keyWrites k (List.range 16) s rest
  rw [foldl_storeKeyByte_sixteen, List.length_range, ← ldkey_eq] at hrun
  exact (run_inputs_eq_run_answered s _ _ 15).trans hrun

/-! ## `ldbuf` -/

theorem step_wb {a : Nat} {s : State} (ha : a < s.cfg.bufsz) (b : Byte) (rest : List Input) :
    step (s.answered (wb a b :: rest)) = .next ((memWrite a [b] s).answered rest) := by
  rw [step_host (rest := rest) rfl, transact_bufWrite]
  exact congrArg Host.Outcome.next (bufWrite_of_lt (s := s.answered rest) ha b)

theorem run_ldbuf {a : Nat} {x : List Byte} {s : State} (hfit : a + x.length ≤ s.cfg.bufsz)
    (rest : List Input) :
    Host.Core.run core x.length (s.answered (ldbuf a x ++ rest)) =
      .next ((memWrite a x s).answered rest) := by
  induction x generalizing a s with
  | nil => rfl
  | cons b x ih =>
    rw [List.length_cons] at hfit
    have hstep := step_wb (s := s) (a := a) (by omega) b (ldbuf (a + 1) x ++ rest)
    have hrest := ih (a := a + 1) (s := memWrite a [b] s) (show a + 1 + x.length ≤ s.cfg.bufsz by omega)
    exact (run_succ_of_step hstep _).trans hrest

/-- Settles O22: the run, by induction on the bytes, is one write of them all. -/
theorem ldbufWritesTheBytes : Obligations.LdbufWritesTheBytes := by
  intro s a x rest hfit hne
  refine ⟨(memWrite a x s).answered rest, ?_, rfl, fun k hk => readByte_memWrite_inside s hk,
    sameOutside_memWrite a x s⟩
  rw [← run_ldbuf hfit rest]
  cases x with
  | nil => exact absurd rfl hne
  | cons b x => exact run_inputs_eq_run_answered s _ _ x.length

end Sys2Proof.Machine
end

section
/-!
The MIC engine and the stream cipher engine as commands (spec/43_mic_engine.md R102 to R107,
spec/44_stream_cipher.md R115 to R119): which clause of a statement the checks select, what an append, a
verify, `CIPHER` and `ENC` leave, and the errors.
-/

namespace Sys2Proof.Machine

/-! ## Errors -/

/-- R106, R141: a length outside the limits. -/
theorem exec_of_bad_length {i : Instr} {s : State} (hlen : lenOk i s.len.toNat = false) :
    exec i s = .next { s with status := { matched := false, errs := true, err := some .len } } :=
  exec_of_error ((checkError_len_iff i s).2 hlen)

/-- R44, R141: a footprint that does not fit. -/
theorem exec_of_bad_range {i : Instr} {s : State} {n : Nat} (hlen : lenOk i s.len.toNat = true)
    (hneed : need i s.len.toNat = some n) (hrange : s.cfg.bufsz < s.off.toNat + n) :
    exec i s = .next { s with status := { matched := false, errs := true, err := some .range } } :=
  exec_of_error ((checkError_range_iff i s).2 ⟨hlen, n, hneed, hrange⟩)

theorem exec_of_good_operands {i : Instr} {s : State} {n : Nat} (hlen : lenOk i s.len.toNat = true)
    (hneed : need i s.len.toNat = some n) (hrange : s.off.toNat + n ≤ s.cfg.bufsz) :
    exec i s = .next (commandEffect i s) := by
  refine exec_of_ok ((checkError_none_iff i s).2 ⟨hlen, fun m hm => ?_⟩)
  obtain rfl : n = m := Option.some.inj (hneed.symm.trans hm)
  exact hrange

/-! ## The checks of the MIC commands -/

/-- R106, R44: the four share the limits of `LEN` and the footprint of message and tag. -/
theorem checks_of_mic {i : Instr} (hi : i ∈ [Instr.micapp, .micver, .mic0app, .mic0ver]) (len : Nat) :
    lenOk i len = micLenOk len ∧ need i len = some (len + 4) := by
  simp only [List.mem_cons, List.not_mem_nil, or_false] at hi
  rcases hi with rfl | rfl | rfl | rfl <;> exact ⟨rfl, rfl⟩

theorem micLenOk_iff (len : Nat) : micLenOk len = true ↔ 1 ≤ len ∧ len ≤ 255 := by
  simp [micLenOk]

theorem exec_mic_of_fits {i : Instr} (hi : i ∈ [Instr.micapp, .micver, .mic0app, .mic0ver]) {s : State}
    (hlo : 1 ≤ s.len.toNat) (hhi : s.len.toNat ≤ 255)
    (hfit : s.off.toNat + s.len.toNat + 4 ≤ s.cfg.bufsz) : exec i s = .next (commandEffect i s) := by
  obtain ⟨hlimits, hneed⟩ := checks_of_mic hi s.len.toNat
  exact exec_of_good_operands (hlimits.trans ((micLenOk_iff _).2 ⟨hlo, hhi⟩)) hneed (by omega)

/-- R106: the two errors of a MIC command, the length first. -/
theorem exec_mic_errors {i : Instr} (hi : i ∈ [Instr.micapp, .micver, .mic0app, .mic0ver]) (s : State) :
    (s.len.toNat = 0 ∨ 255 < s.len.toNat →
      exec i s = .next { s with status := { matched := false, errs := true, err := some .len } }) ∧
    (1 ≤ s.len.toNat → s.len.toNat ≤ 255 → s.cfg.bufsz < s.off.toNat + s.len.toNat + 4 →
      exec i s = .next { s with status := { matched := false, errs := true, err := some .range } }) := by
  obtain ⟨hlimits, hneed⟩ := checks_of_mic hi s.len.toNat
  refine ⟨fun hlen => exec_of_bad_length ?_, fun hlo hhi hrange => ?_⟩
  · rw [hlimits, ← Bool.not_eq_true, micLenOk_iff]
    omega
  · exact exec_of_bad_range (hlimits.trans ((micLenOk_iff _).2 ⟨hlo, hhi⟩)) hneed (by omega)

/-! ## Append and verify -/

/-- R102, R104: what an append leaves, whatever the cipher is: the four bytes after the message are the first
four of the chaining value, and no other byte changes. -/
theorem finish_memWrite_micTag_spec (E : Block → Block → Block) (c0 aux : Block) (s : State) :
    let t := finish false (memWrite (micAddress s) (micTag E c0 s) (s.setAux aux))
    SameButBuf
        { s with aux := aux, status := { matched := false, errs := s.status.errs, err := none } } t ∧
      (∀ k, k < 4 → readByte t (micAddress s + k) = (mac E s.key c0 (micMessage s)).get k) ∧
      SameOutside (micAddress s) 4 s t := by
  refine ⟨rfl, fun k hk => ?_, ?_⟩
  · rw [readByte_finish, readByte_memWrite_inside _ (by simpa using hk), micTag_getElem]
  · exact length_micTag E c0 s ▸ sameOutside_memWrite (micAddress s) (micTag E c0 s) (s.setAux aux)

/-- R103, R105: the comparison is of all four stored bytes with the first four of the chaining value. -/
theorem tagMatches_micTag_iff (E : Block → Block → Block) (c0 : Block) (s : State) :
    tagMatches (memRead s (micAddress s) 4) (micTag E c0 s) = true ↔
      ∀ k, k < 4 → readByte s (micAddress s + k) = (mac E s.key c0 (micMessage s)).get k := by
  rw [tagMatches_iff]
  refine forall₂_congr fun k hk => ?_
  rw [List.getD_eq_getElem _ _ (by simpa using hk), List.getD_eq_getElem _ _ (by simpa using hk),
    getElem_memRead, micTag_getElem]

/-- Settles O40: the tag is written after the message, over a state in which `AUX` is B0. -/
theorem micappAppendsTheTag : Obligations.MicappAppendsTheTag := by
  refine ⟨decode_encode .micapp, fun s => ⟨fun hlo hhi hfit => ?_, exec_mic_errors (by decide) s⟩⟩
  exact ⟨_, exec_mic_of_fits (by decide) hlo hhi hfit,
    finish_memWrite_micTag_spec blockCipher (blockCipher s.key (dataB0 s)) (dataB0 s) s⟩

/-- Settles O42: the tag from a zero chaining value is written after the message. -/
theorem mic0appAppendsTheTag : Obligations.Mic0appAppendsTheTag := by
  refine ⟨decode_encode .mic0app, fun s => ⟨fun hlo hhi hfit => ?_, exec_mic_errors (by decide) s⟩⟩
  exact ⟨_, exec_mic_of_fits (by decide) hlo hhi hfit,
    finish_memWrite_micTag_spec blockCipher Block.zero s.aux s⟩

/-- Settles O41: `MATCH` is the comparison with the tag computed from the encrypted B0. -/
theorem micverComparesTheTag : Obligations.MicverComparesTheTag := by
  refine ⟨decode_encode .micver, fun s => ⟨fun hlo hhi hfit => ?_, exec_mic_errors (by decide) s⟩⟩
  exact ⟨_, exec_mic_of_fits (by decide) hlo hhi hfit,
    tagMatches_micTag_iff blockCipher (blockCipher s.key (dataB0 s)) s⟩

/-- Settles O43: `MATCH` is the comparison with the tag computed from a zero chaining value. -/
theorem mic0verComparesTheTag : Obligations.Mic0verComparesTheTag := by
  refine ⟨decode_encode .mic0ver, fun s => ⟨fun hlo hhi hfit => ?_, exec_mic_errors (by decide) s⟩⟩
  exact ⟨_, exec_mic_of_fits (by decide) hlo hhi hfit, tagMatches_micTag_iff blockCipher Block.zero s⟩

/-! ## `CIPHER` -/

theorem lenOk_cipher_iff (len : Nat) : lenOk .cipher len = true ↔ len ≤ 4080 := by
  simp [lenOk]

/-- R115: byte `p` of the payload. -/
theorem readByte_cipherLoop_payload (E : Block → Block → Block) (s : State) {p : Nat}
    (hp : p < s.len.toNat) :
    readByte (cipherLoop E s) (s.off.toNat + p) =
      readByte s (s.off.toNat + p) ^^^ keystreamByte E s p := by
  rw [(cipherLoop_spec E s).1, if_pos (by omega), Nat.add_sub_cancel_left]

theorem sameOutside_cipherLoop (E : Block → Block → Block) (s : State) :
    SameOutside s.off.toNat s.len.toNat s (cipherLoop E s) := by
  intro a ha
  rw [(cipherLoop_spec E s).1, if_neg (by omega)]

/-- R116: outside the buffer `CIPHER` changes `AUX` and `STATUS` only. -/
theorem sameButBuf_finish_cipherLoop (E : Block → Block → Block) (s : State) :
    SameButBuf
      (finish false (s.setAux
        (if s.len.toNat = 0 then s.aux else counterBlock s (ceil16 s.len.toNat))))
      (finish false (cipherLoop E s)) := by
  have hframe := (cipherLoop_spec E s).2
  generalize cipherLoop E s = t at hframe
  rw [hframe]
  rfl

/-- Settles O46: `cipherLoop_spec` gives every byte and `AUX`; the checks are R119 and R44. -/
theorem cipherXorsTheKeystream : Obligations.CipherXorsTheKeystream := by
  refine ⟨decode_encode .cipher, fun s => ⟨fun hlen hfit => ?_, fun hlen => ?_, fun hlen hrange => ?_⟩⟩
  · exact ⟨_, exec_of_good_operands ((lenOk_cipher_iff _).2 hlen) rfl hfit,
      sameButBuf_finish_cipherLoop blockCipher s,
      fun p hp => readByte_cipherLoop_payload blockCipher s hp, sameOutside_cipherLoop blockCipher s⟩
  · refine exec_of_bad_length ?_
    rw [← Bool.not_eq_true, lenOk_cipher_iff]
    omega
  · exact exec_of_bad_range ((lenOk_cipher_iff _).2 hlen) rfl hrange

/-! ## `ENC` -/

/-- The block bound by a read of sixteen bytes is those bytes. -/
theorem padBlock_memRead_get (s : State) (a : Nat) {k : Nat} (hk : k < 16) :
    (padBlock (memRead s a 16)).get k = readByte s (a + k) := by
  rw [block_get_eq _ hk]
  simp only [padBlock_of_length (length_memRead s a 16), getElem_memRead]

/-- What a block written to the buffer at the end of a command leaves, whatever the block is: proofs about
`ENC` go through it so that the cipher stays folded. -/
theorem finish_memWrite_block_spec (s : State) (a : Nat) (x : Block) :
    let t := finish false (memWrite a x.bytes s)
    SameButBuf { s with status := { matched := false, errs := s.status.errs, err := none } } t ∧
      (∀ k, k < 16 → readByte t (a + k) = x.get k) ∧ SameOutside a 16 s t := by
  refine ⟨rfl, fun k hk => ?_, x.size ▸ sameOutside_memWrite a x.bytes s⟩
  rw [readByte_finish, readByte_memWrite_inside s (x.size.symm ▸ hk), block_get_eq x hk]

/-- R44, R117: sixteen bytes within the buffer. -/
theorem exec_enc_of_fits {s : State} (hfit : s.off.toNat + 16 ≤ s.cfg.bufsz) :
    exec .enc s = .next (finish false (memWrite s.off.toNat
      (blockCipher s.key (padBlock (memRead s s.off.toNat 16))).bytes s)) :=
  exec_of_good_operands rfl rfl hfit

/-- Settles O47: the sixteen bytes read are one block, and its encryption is written over them. -/
theorem encTransformsSixteenBytes : Obligations.EncTransformsSixteenBytes := by
  refine ⟨decode_encode .enc, fun s => ⟨fun hfit => ?_, fun hrange => exec_of_bad_range rfl rfl hrange⟩⟩
  obtain ⟨hframe, hwritten, houtside⟩ := finish_memWrite_block_spec s s.off.toNat
    (blockCipher s.key (padBlock (memRead s s.off.toNat 16)))
  exact ⟨_, _, exec_enc_of_fits hfit, hframe, fun k hk => padBlock_memRead_get s _ hk, hwritten, houtside⟩

end Sys2Proof.Machine
end

section
/-!
The byte codec (spec/40_byte_codec.md R80 to R87): the two byte orders as inverse maps between byte strings
and numbers, what a write and a read leave, the six commands, and the round trips.
-/

namespace Sys2Proof.Machine

/-! ## Byte orders (R80) -/

/-- Byte `k` of a little-endian string is the `k`-th group of eight bits. -/
@[simp] theorem getElem_leBytes {w : Nat} (n : Nat) (v : BitVec w) (k : Nat)
    (h : k < (leBytes n v.toNat).length) : (leBytes n v.toNat)[k] = v.extractLsb' (8 * k) 8 := by
  simp only [leBytes, List.getElem_map, List.getElem_range]
  rfl

/-- Byte `k` of a big-endian string is the group of eight bits counted from the top. -/
@[simp] theorem getElem_beBytes {w : Nat} (n : Nat) (v : BitVec w) (k : Nat)
    (h : k < (beBytes n v.toNat).length) :
    (beBytes n v.toNat)[k] = v.extractLsb' (8 * (n - 1 - k)) 8 := by
  simp only [beBytes, List.getElem_map, List.getElem_range]
  rfl

theorem leBytes_succ (n v : Nat) : leBytes (n + 1) v = BitVec.ofNat 8 v :: leBytes n (v / 256) := by
  have hshift : ∀ k, v >>> (8 * (k + 1)) = (v / 256) >>> (8 * k) := fun k => by
    rw [Nat.mul_succ, Nat.add_comm, Nat.shiftRight_add, Nat.shiftRight_eq_div_pow v 8]
  simp only [leBytes, List.range_succ_eq_map, List.map_cons, List.map_map, Function.comp_def,
    Nat.succ_eq_add_one, hshift, Nat.mul_zero, Nat.shiftRight_zero]

theorem beBytes_eq_reverse_leBytes (n v : Nat) : beBytes n v = (leBytes n v).reverse := by
  apply List.ext_getElem (by simp)
  simp [beBytes, leBytes]

/-- A number written in `n` bytes keeps its low `8 n` bits. -/
theorem leVal_leBytes (n v : Nat) : leVal (leBytes n v) = v % 256 ^ n := by
  induction n generalizing v with
  | zero => simp [leBytes, Nat.mod_one]
  | succ n ih =>
    have hlow : (BitVec.ofNat 8 v).toNat = v % 256 := BitVec.toNat_ofNat v 8
    rw [leBytes_succ, leVal_cons, ih, hlow, Nat.pow_succ', Nat.mod_mul]

theorem beVal_beBytes (n v : Nat) : beVal (beBytes n v) = v % 256 ^ n := by
  rw [beVal_eq_leVal_reverse, beBytes_eq_reverse_leBytes, List.reverse_reverse, leVal_leBytes]

/-- The bytes of the value of a string are the string. -/
theorem leBytes_leVal (x : List Byte) : leBytes x.length (leVal x) = x := by
  induction x with
  | nil => rfl
  | cons b x ih =>
    have hb : b.toNat < 256 := b.isLt
    have hhigh : (b.toNat + 256 * leVal x) / 256 = leVal x := by omega
    have hlow : BitVec.ofNat 8 (b.toNat + 256 * leVal x) = b := by
      apply BitVec.eq_of_toNat_eq
      rw [BitVec.toNat_ofNat]
      omega
    rw [List.length_cons, leVal_cons, leBytes_succ, hhigh, hlow, ih]

theorem beBytes_beVal (x : List Byte) : beBytes x.length (beVal x) = x := by
  rw [beBytes_eq_reverse_leBytes, beVal_eq_leVal_reverse, ← List.length_reverse, leBytes_leVal,
    List.reverse_reverse]

theorem leVal_lt (x : List Byte) : leVal x < 256 ^ x.length := by
  induction x with
  | nil => exact Nat.one_pos
  | cons b x ih =>
    have hb : b.toNat < 256 := b.isLt
    rw [leVal_cons, List.length_cons, Nat.pow_succ']
    omega

/-- One more byte below a number is one more byte below its bits. -/
theorem ofNat_mul_add_byte (w m : Nat) (b : Byte) :
    BitVec.ofNat (w + 8) (256 * m + b.toNat) = BitVec.ofNat w m ++ b := by
  have hb : b.toNat < 2 ^ 8 := b.isLt
  have hhigh : (256 * m + b.toNat) / 2 ^ 8 = m := by omega
  have hlow : (256 * m + b.toNat) % 2 ^ 8 = b.toNat := by omega
  apply BitVec.eq_of_toNat_eq
  rw [BitVec.toNat_append, ← Nat.shiftLeft_add_eq_or_of_lt hb, Nat.shiftLeft_eq, BitVec.toNat_ofNat,
    BitVec.toNat_ofNat, Nat.add_comm w 8, Nat.pow_add, Nat.mod_mul, hhigh, hlow, Nat.mul_comm,
    Nat.add_comm]

/-- Four bytes read most significant first are the four side by side. -/
theorem ofNat_beVal_four (a b c d : Byte) : BitVec.ofNat 32 (beVal [a, b, c, d]) = a ++ b ++ c ++ d := by
  have hhorner : beVal [a, b, c, d] = 256 * (256 * (256 * a.toNat + b.toNat) + c.toNat) + d.toNat := by
    simp [beVal]
  rw [hhorner, ofNat_mul_add_byte 24, ofNat_mul_add_byte 16, ofNat_mul_add_byte 8, BitVec.ofNat_toNat,
    BitVec.setWidth_eq]

/-! ## `VAL` as bytes -/

/-- The value of up to four bytes fits `VAL`. -/
theorem toNat_ofNat_leVal {x : List Byte} (hx : x.length ≤ 4) :
    (BitVec.ofNat 32 (leVal x)).toNat = leVal x := by
  rw [BitVec.toNat_ofNat]
  exact Nat.mod_eq_of_lt ((leVal_lt x).trans_le (Nat.pow_le_pow_right (by decide) hx))

theorem toNat_ofNat_beVal {x : List Byte} (hx : x.length ≤ 4) :
    (BitVec.ofNat 32 (beVal x)).toNat = beVal x := by
  rw [beVal_eq_leVal_reverse, toNat_ofNat_leVal (by rwa [List.length_reverse])]

/-- Bytes enough for every bit give the number back. -/
theorem ofNat_leVal_leBytes {w : Nat} (n : Nat) (v : BitVec w) (hw : w ≤ 8 * n) :
    BitVec.ofNat 32 (leVal (leBytes n v.toNat)) = v.setWidth 32 := by
  have hlt : v.toNat < 256 ^ n :=
    calc v.toNat < 2 ^ w := v.isLt
      _ ≤ 2 ^ (8 * n) := Nat.pow_le_pow_right (by decide) hw
      _ = 256 ^ n := Nat.pow_mul 2 8 n
  rw [leVal_leBytes, Nat.mod_eq_of_lt hlt, BitVec.ofNat_toNat]

theorem ofNat_beVal_beBytes (v : Word) : BitVec.ofNat 32 (beVal (beBytes 4 v.toNat)) = v := by
  rw [beVal_eq_leVal_reverse, beBytes_eq_reverse_leBytes, List.reverse_reverse,
    ofNat_leVal_leBytes 4 v (by decide), BitVec.setWidth_eq]

/-- R46: bytes written in one order and read in the other are reversed. -/
theorem ofNat_beVal_leBytes (v : Word) :
    BitVec.ofNat 32 (beVal (leBytes 4 v.toNat)) =
      v.extractLsb' 0 8 ++ v.extractLsb' 8 8 ++ v.extractLsb' 16 8 ++ v.extractLsb' 24 8 :=
  ofNat_beVal_four (v.extractLsb' 0 8) (v.extractLsb' 8 8) (v.extractLsb' 16 8) (v.extractLsb' 24 8)

/-- Byte `k` of the low half is byte `k` of the word. -/
theorem extractLsb'_lowHalf (v : Word) {k : Nat} (hk : k < 2) :
    (v.extractLsb' 0 16).extractLsb' (8 * k) 8 = v.extractLsb' (8 * k) 8 :=
  BitVec.extractLsb'_extractLsb'_of_le (by omega)

theorem leBytes_lowHalf_ofNat_leVal {x : List Byte} (hx : x.length = 2) :
    leBytes 2 ((BitVec.ofNat 32 (leVal x)).extractLsb' 0 16).toNat = x := by
  have hlt : leVal x < 2 ^ 16 := (leVal_lt x).trans_eq (by simp [hx])
  rw [toNat_lowBits, toNat_ofNat_leVal (hx.trans_le (by decide)), Nat.mod_eq_of_lt hlt, ← hx,
    leBytes_leVal]

theorem leBytes_ofNat_leVal {x : List Byte} (hx : x.length = 4) :
    leBytes 4 (BitVec.ofNat 32 (leVal x)).toNat = x := by
  rw [toNat_ofNat_leVal hx.le, ← hx, leBytes_leVal]

theorem beBytes_ofNat_beVal {x : List Byte} (hx : x.length = 4) :
    beBytes 4 (BitVec.ofNat 32 (beVal x)).toNat = x := by
  rw [toNat_ofNat_beVal hx.le, ← hx, beBytes_beVal]

/-! ## The bytes a codec command reads and writes -/

theorem memRead_two (s : State) (a : Nat) : memRead s a 2 = [readByte s a, readByte s (a + 1)] := rfl

theorem memRead_four (s : State) (a : Nat) :
    memRead s a 4 = [readByte s a, readByte s (a + 1), readByte s (a + 2), readByte s (a + 3)] := rfl

/-- What bytes written to the buffer at the end of a command leave. -/
theorem finish_memWrite_spec (s : State) (a : Nat) (x : List Byte) :
    let t := finish false (memWrite a x s)
    SameButBuf { s with status := { matched := false, errs := s.status.errs, err := none } } t ∧
      (∀ k, (h : k < x.length) → readByte t (a + k) = x[k]) ∧ SameOutside a x.length s t :=
  ⟨rfl, fun _ h => readByte_memWrite_inside s h, sameOutside_memWrite a x s⟩

/-- What a read binds to `VAL` after a write of the same footprint. -/
theorem read_after_write (value : List Byte → Nat) (s : State) (a : Nat) (x : List Byte) :
    BitVec.ofNat 32 (value (memRead (finish false (memWrite a x s)) a x.length)) =
      BitVec.ofNat 32 (value x) :=
  congrArg (fun bytes => BitVec.ofNat 32 (value bytes)) (memRead_memWrite_self s a x)

/-- Bytes written back where they were read change no byte. -/
theorem readByte_write_back {s : State} {a n : Nat} {x : List Byte} (hx : x = memRead s a n) (y : Nat) :
    readByte (finish false (memWrite a x s)) y = readByte s y := by
  subst hx
  rw [readByte_finish, readByte_memWrite]
  split
  next h => rw [getElem_memRead, Nat.add_sub_cancel' h.1]
  next => rfl

/-! ## The reads -/

/-- Settles O23: the value of two bytes is their sum of R80, and it fits `VAL`. -/
theorem rdle16ReadsLittleEndian : Obligations.Rdle16ReadsLittleEndian := by
  refine ⟨decode_encode .rdle16, fun s => ⟨fun hfit => ?_, fun hrange => exec_of_bad_range rfl rfl hrange⟩⟩
  have hval : leVal (memRead s s.off.toNat 2) =
      (readByte s s.off.toNat).toNat + 256 * (readByte s (s.off.toNat + 1)).toNat := by
    simp [memRead_two]
  exact ⟨_, exec_of_good_operands rfl rfl hfit, (toNat_ofNat_leVal (by simp)).trans hval⟩

/-- Settles O24: the value of four bytes in little-endian order, and it fits `VAL`. -/
theorem rdle32ReadsLittleEndian : Obligations.Rdle32ReadsLittleEndian := by
  refine ⟨decode_encode .rdle32, fun s => ⟨fun hfit => ?_, fun hrange => exec_of_bad_range rfl rfl hrange⟩⟩
  have hval : leVal (memRead s s.off.toNat 4) =
      (readByte s s.off.toNat).toNat + 2 ^ 8 * (readByte s (s.off.toNat + 1)).toNat +
        2 ^ 16 * (readByte s (s.off.toNat + 2)).toNat +
        2 ^ 24 * (readByte s (s.off.toNat + 3)).toNat := by
    simp only [memRead_four, leVal_cons, leVal_nil]
    omega
  exact ⟨_, exec_of_good_operands rfl rfl hfit, (toNat_ofNat_leVal (by simp)).trans hval⟩

/-- Settles O25: the value of four bytes in big-endian order, and it fits `VAL`. -/
theorem rdbe32ReadsBigEndian : Obligations.Rdbe32ReadsBigEndian := by
  refine ⟨decode_encode .rdbe32, fun s => ⟨fun hfit => ?_, fun hrange => exec_of_bad_range rfl rfl hrange⟩⟩
  have hval : beVal (memRead s s.off.toNat 4) =
      2 ^ 24 * (readByte s s.off.toNat).toNat + 2 ^ 16 * (readByte s (s.off.toNat + 1)).toNat +
        2 ^ 8 * (readByte s (s.off.toNat + 2)).toNat + (readByte s (s.off.toNat + 3)).toNat := by
    simp only [memRead_four, beVal_cons, beVal_nil, List.length_cons, List.length_nil]
    omega
  exact ⟨_, exec_of_good_operands rfl rfl hfit, (toNat_ofNat_beVal (by simp)).trans hval⟩

/-! ## The writes -/

/-- Settles O26: the two bytes of the low half of `VAL`, and their frame. -/
theorem wrle16WritesTwoBytes : Obligations.Wrle16WritesTwoBytes := by
  refine ⟨decode_encode .wrle16, fun s => ⟨fun hfit => ?_, fun hrange => exec_of_bad_range rfl rfl hrange⟩⟩
  obtain ⟨hframe, hwritten, houtside⟩ :=
    finish_memWrite_spec s s.off.toNat (leBytes 2 (s.val.extractLsb' 0 16).toNat)
  have hbyte : ∀ k, k < 2 →
      readByte (commandEffect .wrle16 s) (s.off.toNat + k) = s.val.extractLsb' (8 * k) 8 := fun k hk =>
    (hwritten k hk).trans ((getElem_leBytes 2 _ k hk).trans (extractLsb'_lowHalf s.val hk))
  exact ⟨_, exec_of_good_operands rfl rfl hfit, hframe, hbyte 0 (by decide), hbyte 1 (by decide), houtside⟩

/-- Settles O27: the four bytes of `VAL` from the lowest, and their frame. -/
theorem wrle32WritesFourBytes : Obligations.Wrle32WritesFourBytes := by
  refine ⟨decode_encode .wrle32, fun s => ⟨fun hfit => ?_, fun hrange => exec_of_bad_range rfl rfl hrange⟩⟩
  obtain ⟨hframe, hwritten, houtside⟩ := finish_memWrite_spec s s.off.toNat (leBytes 4 s.val.toNat)
  exact ⟨_, exec_of_good_operands rfl rfl hfit, hframe,
    fun k hk => (hwritten k hk).trans (getElem_leBytes 4 s.val k hk), houtside⟩

/-- Settles O28: the four bytes of `VAL` from the highest, and their frame. -/
theorem wrbe32WritesFourBytes : Obligations.Wrbe32WritesFourBytes := by
  refine ⟨decode_encode .wrbe32, fun s => ⟨fun hfit => ?_, fun hrange => exec_of_bad_range rfl rfl hrange⟩⟩
  obtain ⟨hframe, hwritten, houtside⟩ := finish_memWrite_spec s s.off.toNat (beBytes 4 s.val.toNat)
  exact ⟨_, exec_of_good_operands rfl rfl hfit, hframe,
    fun k hk => (hwritten k hk).trans (getElem_beBytes 4 s.val k hk), houtside⟩

/-! ## The round trips (R87)

No command changes what the checks look at, so the second command of a pair runs where the first did. -/

/-- Settles O29: the bytes written are read back, and a number is the value of its bytes. -/
theorem codecWriteThenReadRoundTrips : Obligations.CodecWriteThenReadRoundTrips := by
  refine fun s => ⟨fun hfit => ?_, fun hfit => ⟨?_, ?_, ?_⟩⟩
  · refine ⟨_, _, exec_of_good_operands rfl rfl hfit, exec_of_good_operands rfl rfl hfit, ?_⟩
    exact (read_after_write leVal s s.off.toNat (leBytes 2 (s.val.extractLsb' 0 16).toNat)).trans
      (ofNat_leVal_leBytes 2 _ (by decide))
  · refine ⟨_, _, exec_of_good_operands rfl rfl hfit, exec_of_good_operands rfl rfl hfit, ?_⟩
    exact (read_after_write leVal s s.off.toNat (leBytes 4 s.val.toNat)).trans
      ((ofNat_leVal_leBytes 4 s.val (by decide)).trans (BitVec.setWidth_eq s.val))
  · refine ⟨_, _, exec_of_good_operands rfl rfl hfit, exec_of_good_operands rfl rfl hfit, ?_⟩
    exact (read_after_write beVal s s.off.toNat (beBytes 4 s.val.toNat)).trans
      (ofNat_beVal_beBytes s.val)
  · refine ⟨_, _, exec_of_good_operands rfl rfl hfit, exec_of_good_operands rfl rfl hfit, ?_⟩
    exact (read_after_write beVal s s.off.toNat (leBytes 4 s.val.toNat)).trans
      (ofNat_beVal_leBytes s.val)

/-- Settles O30: the bytes of the value read are the bytes read, written back where they were. -/
theorem codecReadThenWriteKeepsTheBuffer : Obligations.CodecReadThenWriteKeepsTheBuffer := by
  refine fun s => ⟨fun hfit => ?_, fun hfit => ⟨?_, ?_⟩⟩
  · exact ⟨_, _, exec_of_good_operands rfl rfl hfit, exec_of_good_operands rfl rfl hfit,
      readByte_write_back (leBytes_lowHalf_ofNat_leVal (length_memRead s s.off.toNat 2))⟩
  · exact ⟨_, _, exec_of_good_operands rfl rfl hfit, exec_of_good_operands rfl rfl hfit,
      readByte_write_back (leBytes_ofNat_leVal (length_memRead s s.off.toNat 4))⟩
  · exact ⟨_, _, exec_of_good_operands rfl rfl hfit, exec_of_good_operands rfl rfl hfit,
      readByte_write_back (beBytes_ofNat_beVal (length_memRead s s.off.toNat 4))⟩

end Sys2Proof.Machine
end

section
/-!
The checksum (spec/41_crc16.md R90, R91, R93): what a round does to an XOR and to a value whose top bits are 0,
what a byte does, the laws of `crc16`, and the command.
-/

namespace Sys2Proof.Machine

/-! ## Rounds -/

theorem crcRound_of_top_clear {acc : BitVec 16} (h : acc.getLsbD 15 = false) : crcRound acc = acc <<< 1 := by
  rw [crcRound, h, if_neg Bool.false_ne_true]

/-- A round as one XOR, with the polynomial or with 0. -/
theorem crcRound_eq_xor (acc : BitVec 16) :
    crcRound acc = acc <<< 1 ^^^ bif acc.getLsbD 15 then 0x1021#16 else 0 := by
  unfold crcRound
  cases acc.getLsbD 15
  case false => exact BitVec.xor_zero.symm
  case true => rfl

/-- The polynomial goes into an XOR exactly when it goes into one of the two: twice, it cancels. -/
theorem crcRound_xor (x y : BitVec 16) : crcRound (x ^^^ y) = crcRound x ^^^ crcRound y := by
  have hpoly : ∀ p q : Bool, (bif p ^^ q then 0x1021#16 else 0) =
      (bif p then 0x1021#16 else 0) ^^^ bif q then 0x1021#16 else 0 := by decide
  simp only [crcRound_eq_xor, BitVec.getLsbD_xor, BitVec.shiftLeft_xor_distrib, hpoly]
  ac_rfl

theorem crcRounds_xor (n : Nat) (x y : BitVec 16) :
    crcRounds n (x ^^^ y) = crcRounds n x ^^^ crcRounds n y := by
  induction n generalizing x y with
  | zero => rfl
  | succ n ih => simp only [crcRounds, crcRound_xor, ih]

/-- While only zeros reach the top, the rounds are shifts. -/
theorem crcRounds_of_top_clear {n : Nat} {acc : BitVec 16} (hn : n ≤ 16)
    (h : ∀ i, 16 - n ≤ i → acc.getLsbD i = false) : crcRounds n acc = acc <<< n := by
  induction n generalizing acc with
  | zero => exact (BitVec.shiftLeft_zero acc).symm
  | succ n ih =>
    have hround : crcRound acc = acc <<< 1 := crcRound_of_top_clear (h 15 (by omega))
    have hclear : ∀ i, 16 - n ≤ i → (acc <<< 1).getLsbD i = false := by
      intro i hi
      rw [BitVec.getLsbD_shiftLeft, h (i - 1) (by omega), Bool.and_false]
    rw [crcRounds, hround, ih (by omega) hclear, ← BitVec.shiftLeft_add, Nat.add_comm]

theorem crcRounds_zero_acc (n : Nat) : crcRounds n 0 = 0 := by
  induction n with
  | zero => rfl
  | succ n ih => exact ih

/-! ## Bytes -/

theorem crcByte_xor (acc acc' : BitVec 16) (b b' : Byte) :
    crcByte (acc ^^^ acc') (b ^^^ b') = crcByte acc b ^^^ crcByte acc' b' := by
  have harg : (acc ^^^ acc') ^^^ (b ^^^ b').setWidth 16 <<< 8 =
      (acc ^^^ b.setWidth 16 <<< 8) ^^^ (acc' ^^^ b'.setWidth 16 <<< 8) := by
    rw [BitVec.setWidth_xor, BitVec.shiftLeft_xor_distrib]
    ac_rfl
  simp only [crcByte, harg, crcRounds_xor]

theorem crcByte_zero_zero : crcByte 0 0 = 0 := crcRounds_zero_acc 8

theorem crcByte_shifted_self (b : Byte) : crcByte (b.setWidth 16 <<< 8) b = 0 := by
  rw [crcByte, BitVec.xor_self]
  exact crcRounds_zero_acc 8

/-- The high byte of the accumulator cancels, and the low byte moves up. -/
theorem crcByte_highByte (acc : BitVec 16) :
    crcByte acc (acc.extractLsb' 8 8) = (acc.extractLsb' 0 8).setWidth 16 <<< 8 := by
  have hcancel : acc ^^^ (acc.extractLsb' 8 8).setWidth 16 <<< 8 = (acc.extractLsb' 0 8).setWidth 16 := by
    ext i hi
    by_cases h : i < 8
    · simp [h, hi]
    · simp [h, hi, show i - 8 < 8 by omega, show 8 + (i - 8) = i by omega]
  rw [crcByte, hcancel]
  refine crcRounds_of_top_clear (by decide) fun i hi => ?_
  rw [BitVec.getLsbD_setWidth, BitVec.getLsbD_of_ge _ i hi, Bool.and_false]

/-! ## Strings -/

/-- Settles O58: `crcRound` is the round, and the bytes are taken in order. -/
theorem crc16FollowsTheRecurrence : Obligations.Crc16FollowsTheRecurrence :=
  ⟨crc16_nil, crcRound, fun _ => rfl, fun x b => crc16_append x [b]⟩

theorem foldl_crcByte_zipWith_xor {x y : List Byte} (h : x.length = y.length) (acc acc' : BitVec 16) :
    (List.zipWith (· ^^^ ·) x y).foldl crcByte (acc ^^^ acc') =
      x.foldl crcByte acc ^^^ y.foldl crcByte acc' := by
  induction x generalizing y acc acc' with
  | nil =>
    obtain rfl : y = [] := List.eq_nil_of_length_eq_zero h.symm
    rfl
  | cons b x ih =>
    obtain ⟨b', y, rfl⟩ := List.exists_cons_of_length_eq_add_one h.symm
    rw [List.zipWith_cons_cons, List.foldl_cons, crcByte_xor]
    exact ih (Nat.succ.inj h) _ _

/-- Settles O32: both accumulators start at 0, and every byte keeps the XOR. -/
theorem crc16IsLinearOverXor : Obligations.Crc16IsLinearOverXor :=
  fun _ _ h => foldl_crcByte_zipWith_xor h 0 0

theorem crc16_replicate_zero (n : Nat) : crc16 (List.replicate n 0) = 0 := by
  induction n with
  | zero => exact crc16_nil
  | succ n ih =>
    rw [List.replicate_succ', crc16_append, ih]
    exact crcByte_zero_zero

/-- Settles O33: the zeros leave the accumulator where it starts. -/
theorem crc16IgnoresLeadingZeros : Obligations.Crc16IgnoresLeadingZeros := by
  refine fun n x => ⟨?_, crc16_replicate_zero n⟩
  rw [crc16_append, crc16_replicate_zero]
  rfl

/-- Settles O34: the high byte leaves the low byte on top, which the low byte cancels. -/
theorem crc16OfStringWithItsChecksumIsZero : Obligations.Crc16OfStringWithItsChecksumIsZero := by
  intro x
  rw [crc16_append, List.foldl_cons, crcByte_highByte]
  exact crcByte_shifted_self _

/-! ## The command -/

/-- Settles O31: the footprint is `LEN` bytes, and the bytes read are those of the range. -/
theorem crc16ChecksumsTheRange : Obligations.Crc16ChecksumsTheRange :=
  ⟨decode_encode .crc16, fun _ =>
    ⟨fun hfit => exec_of_good_operands rfl rfl hfit, fun hrange => exec_of_bad_range rfl rfl hrange⟩⟩

end Sys2Proof.Machine
end

section
/-!
The block constructor (spec/42_block_builder.md R95, R96): the bytes of a little-endian word, the layout, and
the command, which no check stops.
-/

namespace Sys2Proof.Machine

/-! ## The layout -/

theorem leBytes_four (v : Word) :
    leBytes 4 v.toNat =
      [v.extractLsb' 0 8, v.extractLsb' 8 8, v.extractLsb' 16 8, v.extractLsb' 24 8] := rfl

/-- Settles O35: the two little-endian words written out. -/
theorem authBlockLayout : Obligations.AuthBlockLayout := by
  intro disc dir addr cnt trail
  rw [authBlock_bytes, leBytes_four addr, leBytes_four cnt]
  rfl

/-! ## The command -/

/-- `BUILD` has neither a length limit nor a footprint, so `OFF` and `LEN` do not matter. -/
theorem checkError_build (s : State) : checkError .build s = none :=
  (checkError_none_iff .build s).2 ⟨rfl, fun _ hneed => nomatch hneed⟩

/-- Settles O36: no check fails, so the command has its whole effect. -/
theorem buildWritesTheBlockAndAlwaysSucceeds : Obligations.BuildWritesTheBlockAndAlwaysSucceeds :=
  ⟨decode_encode .build, fun s => exec_of_ok (checkError_build s)⟩

end Sys2Proof.Machine
end

section
/-!
The chaining value `mac` and the tag (spec/43_mic_engine.md R100, R101, R104, R111): the chunks of a longer
message, what zero bytes at the end do, and what a verify answers after an append.
-/

namespace Sys2Proof.Machine

/-! ## Blocks and padding -/

theorem xorBlock_get (x y : Block) {j : Nat} (hj : j < 16) :
    (xorBlock x y).get j = x.get j ^^^ y.get j := by
  rw [block_get_eq _ hj, block_get_eq x hj, block_get_eq y hj]
  simp [xorBlock_bytes]

@[simp] theorem xorBlock_zero_left (x : Block) : xorBlock Block.zero x = x :=
  block_ext_get fun j hj => by
    rw [xorBlock_get _ _ hj, block_zero_get]
    exact BitVec.zero_xor

/-- Only the first sixteen bytes are padded. -/
theorem padBlock_take_sixteen (x : List Byte) : padBlock (x.take 16) = padBlock x := by
  refine block_ext ?_
  simp only [padBlock, List.take_append, List.take_take, List.take_replicate, List.length_take, min_self]
  congr 2
  omega

/-- Zero bytes at the end are what padding adds. -/
theorem padBlock_append_zeros (x : List Byte) (z : Nat) :
    padBlock (x ++ List.replicate z 0) = padBlock x := by
  refine block_ext ?_
  simp only [padBlock, List.append_assoc, List.replicate_append_replicate, List.take_append,
    List.take_replicate]
  congr 2
  omega

theorem padBlock_block (p : Block) : padBlock p.bytes = p := block_ext (padBlock_of_length p.size)

/-! ## Chunks -/

/-- Chunk `j` is what lies from byte `16(j-1)` on, cut or padded to sixteen bytes (R100). -/
theorem chunk_eq_padBlock_drop (m : List Byte) (j : Nat) : chunk m j = padBlock (m.drop (16 * (j - 1))) :=
  padBlock_take_sixteen _

theorem chunk_block_append_one (p : Block) (m : List Byte) : chunk (p.bytes ++ m) 1 = p := by
  rw [chunk, Nat.sub_self, Nat.mul_zero, List.drop_zero, List.take_left' p.size, padBlock_block]

theorem chunk_block_append_succ (p : Block) (m : List Byte) {j : Nat} (hj : 1 ≤ j) :
    chunk (p.bytes ++ m) (j + 1) = chunk m j := by
  have hoffset : 16 * (j + 1 - 1) = p.bytes.length + 16 * (j - 1) := by
    have hsize := p.size
    omega
  rw [chunk, chunk, hoffset, List.drop_length_add_append]

theorem chunk_append_zeros (m : List Byte) (z j : Nat) : chunk (m ++ List.replicate z 0) j = chunk m j := by
  rw [chunk_eq_padBlock_drop, chunk_eq_padBlock_drop, List.drop_append, List.drop_replicate,
    padBlock_append_zeros]

/-! ## The chaining value -/

@[simp] theorem mac_nil (E : Block → Block → Block) (k c0 : Block) : mac E k c0 [] = c0 := rfl

/-- R100: a leading block is chained through first, and the rest of the message goes on from there. -/
theorem mac_block_append (E : Block → Block → Block) (k c0 p : Block) (m : List Byte) :
    mac E k c0 (p.bytes ++ m) = mac E k (E k (xorBlock c0 p)) m := by
  have hchunks : ceil16 (p.bytes ++ m).length = ceil16 m.length + 1 := by
    rw [List.length_append, p.size, ceil16, ceil16]
    omega
  have hshift : List.range' 2 (ceil16 m.length) = (List.range' 1 (ceil16 m.length)).map (1 + ·) :=
    (List.map_add_range' 1 _ 1).symm
  rw [mac, mac, hchunks, List.range'_succ, List.foldl_cons, chunk_block_append_one, hshift,
    List.foldl_map]
  refine List.foldl_ext _ _ _ fun c j hj => ?_
  rw [Nat.add_comm 1 j, chunk_block_append_succ p m (List.mem_range'_1.1 hj).1]

theorem mac_block (E : Block → Block → Block) (k c0 p : Block) :
    mac E k c0 p.bytes = E k (xorBlock c0 p) := by
  rw [← List.append_nil p.bytes, mac_block_append, mac_nil]

/-- R104: the chunks are the same, so only their number could matter. -/
theorem mac_append_zeros (E : Block → Block → Block) (k c0 : Block) {m : List Byte} {z : Nat}
    (hchunks : ceil16 (m.length + z) = ceil16 m.length) :
    mac E k c0 (m ++ List.replicate z 0) = mac E k c0 m := by
  simp only [mac, List.length_append, List.length_replicate, hchunks, chunk_append_zeros]

/-- Settles O37: a short message has the value of the block it pads to, which is one block and nothing
after it. -/
theorem macIsTheZeroPaddedChain : Obligations.MacIsTheZeroPaddedChain := by
  refine ⟨fun x y j hj => xorBlock_get x y hj, fun E k c0 p m hm => ⟨fun z hp => ?_, ?_⟩⟩
  · have hsize : 16 = m.length + z := by simpa [hp] using p.size.symm
    have hpos : 0 < m.length := List.length_pos_of_ne_nil hm
    have hchunks : ceil16 (m.length + z) = ceil16 m.length := by
      unfold ceil16
      omega
    rw [← mac_append_zeros E k c0 hchunks, ← hp, mac_block]
  · exact mac_block_append E k c0 p m

/-- Settles O38: a zero chaining value leaves the first block as it is. -/
theorem dataFrameMacIsTheJoinFrameMacOfB0AndMessage :
    Obligations.DataFrameMacIsTheJoinFrameMacOfB0AndMessage := by
  intro E k b0 m _
  rw [mac_block_append, xorBlock_zero_left]

/-- Settles O39: the zero bytes are those the padding adds anyway. -/
theorem zeroBytesInTheLastChunkDoNotChangeTheMac : Obligations.ZeroBytesInTheLastChunkDoNotChangeTheMac :=
  fun E k c0 _ _ _ hchunks => mac_append_zeros E k c0 hchunks

/-! ## What a MIC command works on -/

/-- The operands are within the limits (R106) and message and tag fit the buffer (R44). -/
structure MicFits (s : State) : Prop where
  /-- 1 <= `LEN`. -/
  len_pos : 1 ≤ s.len.toNat
  /-- `LEN` <= 255. -/
  len_le : s.len.toNat ≤ 255
  /-- The tag ends within the buffer. -/
  range : s.off.toNat + s.len.toNat + 4 ≤ s.cfg.bufsz

/-- The two states agree in everything that a tag is computed from or that says where it lies: the operands
of B0, the key, and the message (R101, R102). `AUX`, `STATUS` and the rest of the buffer may differ. -/
structure SameMicOperands (s t : State) : Prop where
  cfg : t.cfg = s.cfg
  off : t.off = s.off
  len : t.len = s.len
  dir : t.dir = s.dir
  addr : t.addr = s.addr
  cnt : t.cnt = s.cnt
  key : t.key = s.key
  message : micMessage t = micMessage s

theorem SameMicOperands.trans {s t u : State} (hst : SameMicOperands s t) (htu : SameMicOperands t u) :
    SameMicOperands s u where
  cfg := htu.cfg.trans hst.cfg
  off := htu.off.trans hst.off
  len := htu.len.trans hst.len
  dir := htu.dir.trans hst.dir
  addr := htu.addr.trans hst.addr
  cnt := htu.cnt.trans hst.cnt
  key := htu.key.trans hst.key
  message := htu.message.trans hst.message

theorem SameMicOperands.fits {s t : State} (h : SameMicOperands s t) (hs : MicFits s) : MicFits t := by
  obtain ⟨hpos, hle, hrange⟩ := hs
  constructor <;> simpa only [h.cfg, h.off, h.len]

theorem SameMicOperands.micAddress_eq {s t : State} (h : SameMicOperands s t) :
    micAddress t = micAddress s := by
  rw [micAddress, micAddress, h.off, h.len]

theorem SameMicOperands.dataB0_eq {s t : State} (h : SameMicOperands s t) : dataB0 t = dataB0 s := by
  rw [dataB0, dataB0, h.dir, h.addr, h.cnt, h.len]

/-- Bytes written after the message leave the message as it is. -/
theorem sameMicOperands_memWrite (s : State) {a : Nat} (ha : micAddress s ≤ a) (x : List Byte) :
    SameMicOperands s (memWrite a x s) where
  cfg := rfl
  off := rfl
  len := rfl
  dir := rfl
  addr := rfl
  cnt := rfl
  key := rfl
  message := memRead_congr fun _ hk =>
    readByte_memWrite_outside s (.inl ((Nat.add_lt_add_left hk _).trans_le ha))

/-! ## An append and a verify that pass their checks -/

theorem checkError_mic_of_fits {i : Instr} (hi : i ∈ [Instr.micapp, .micver, .mic0app, .mic0ver])
    {s : State} (hs : MicFits s) : checkError i s = none := by
  obtain ⟨hlimits, hneed⟩ := checks_of_mic hi s.len.toNat
  refine (checkError_none_iff i s).2 ⟨hlimits.trans ((micLenOk_iff _).2 ⟨hs.len_pos, hs.len_le⟩),
    fun n hn => ?_⟩
  obtain rfl : s.len.toNat + 4 = n := Option.some.inj (hneed.symm.trans hn)
  exact Nat.add_assoc _ _ _ ▸ hs.range

/-- R102, R104: an append puts the tag after the message and keeps all it was computed from. -/
theorem micAppend_of_fits (E : Block → Block → Block) {i : Instr}
    (hi : i ∈ [Instr.micapp, .micver, .mic0app, .mic0ver]) (c0 aux : State → Block) {s : State}
    (hs : MicFits s) :
    ∃ t, micAppend E i c0 aux s = .next t ∧ SameMicOperands s t ∧
      ∀ k, k < 4 → readByte t (micAddress s + k) = (mac E s.key (c0 s) (micMessage s)).get k := by
  refine ⟨_, command_of_ok (checkError_mic_of_fits hi hs) _, ?_, ?_⟩
  · obtain ⟨hcfg, hoff, hlen, hdir, haddr, hcnt, hkey, hmessage⟩ :=
      sameMicOperands_memWrite (s.setAux (aux s)) le_rfl (micTag E (c0 s) s)
    exact ⟨hcfg, hoff, hlen, hdir, haddr, hcnt, hkey, hmessage⟩
  · obtain ⟨-, htag, -⟩ := finish_memWrite_micTag_spec E (c0 s) (aux s) s
    exact htag

/-- R103, R105, R145: a verify ends without an error, and `MATCH` compares the stored bytes with the tag of
any state that has the same operands. -/
theorem micVerify_of_fits (E : Block → Block → Block) {i : Instr}
    (hi : i ∈ [Instr.micapp, .micver, .mic0app, .mic0ver]) {c0 : State → Block} (aux : State → Block)
    {s t : State} (hs : MicFits s) (hst : SameMicOperands s t) (hc0 : c0 t = c0 s) :
    ∃ u, micVerify E i c0 aux t = .next u ∧ u.status.err = none ∧
      (u.status.matched = true ↔
        ∀ k, k < 4 → readByte t (micAddress s + k) = (mac E s.key (c0 s) (micMessage s)).get k) := by
  refine ⟨_, command_of_ok (checkError_mic_of_fits hi (hst.fits hs)) _, rfl, ?_⟩
  rw [← hst.micAddress_eq, ← hst.key, ← hst.message, ← hc0]
  exact tagMatches_micTag_iff E (c0 t) t

/-! ## A verify after an append -/

section AppendThenVerify

variable (E : Block → Block → Block) {app ver : Instr}
  (happ : app ∈ [Instr.micapp, .micver, .mic0app, .mic0ver])
  (hver : ver ∈ [Instr.micapp, .micver, .mic0app, .mic0ver])
  {c0 : State → Block} (aux : State → Block) {s : State} (hs : MicFits s)
  (hc0 : ∀ t, SameMicOperands s t → c0 t = c0 s)
include happ hver hs hc0

/-- R111 (a), for either kind: the initial chaining value `c0` is one that an append cannot change. -/
theorem micVerify_after_micAppend :
    ∃ t u, micAppend E app c0 aux s = .next t ∧ micVerify E ver c0 aux t = .next u ∧
      u.status.matched = true ∧ u.status.err = none := by
  obtain ⟨t, ht, hst, htag⟩ := micAppend_of_fits E happ c0 aux hs
  obtain ⟨u, hu, herr, hmatched⟩ := micVerify_of_fits E hver aux hs hst (hc0 t hst)
  exact ⟨t, u, ht, hu, hmatched.2 htag, herr⟩

/-- R111 (b), for either kind: the byte the host wrote is not the one of the recomputed tag. -/
theorem micVerify_after_changed_byte {k : Nat} (hk : k < 4) (b : Byte) :
    ∃ t, micAppend E app c0 aux s = .next t ∧ (readByte t (micAddress s + k) ≠ b →
      ∃ u, micVerify E ver c0 aux (bufWrite (micAddress s + k) b t) = .next u ∧
        u.status.matched = false ∧ u.status.err = none) := by
  obtain ⟨t, ht, hst, htag⟩ := micAppend_of_fits E happ c0 aux hs
  refine ⟨t, ht, fun hne => ?_⟩
  have hlt : micAddress s + k < t.cfg.bufsz := by
    have hrange := hs.range
    rw [hst.cfg, micAddress]
    omega
  rw [bufWrite_of_lt hlt]
  have hsw : SameMicOperands s (memWrite (micAddress s + k) [b] t) :=
    hst.trans (sameMicOperands_memWrite t (hst.micAddress_eq.trans_le (Nat.le_add_right _ _)) [b])
  obtain ⟨u, hu, herr, hmatched⟩ := micVerify_of_fits E hver aux hs hsw (hc0 _ hsw)
  refine ⟨u, hu, Bool.eq_false_of_not_eq_true fun hmatch => hne ?_, herr⟩
  have hwritten : readByte (memWrite (micAddress s + k) [b] t) (micAddress s + k) = b :=
    readByte_memWrite_inside t (x := [b]) (k := 0) Nat.zero_lt_one
  rw [htag k hk, ← hmatched.1 hmatch k hk, hwritten]

end AppendThenVerify

/-- R101: the initial chaining value of a data frame is the cipher of B0, and B0 and the key are operands. -/
theorem SameMicOperands.encryptedB0_eq (E : Block → Block → Block) {s t : State} (h : SameMicOperands s t) :
    E t.key (dataB0 t) = E s.key (dataB0 s) := by
  rw [h.key, h.dataB0_eq]

/-- Settles O44: both kinds start from a chaining value that the append does not change. -/
theorem verifyAfterAppendMatches : Obligations.VerifyAfterAppendMatches := fun E _ hlo hhi hfit =>
  have hs : MicFits _ := ⟨hlo, hhi, hfit⟩
  ⟨micVerify_after_micAppend E (by decide) (by decide) dataB0 hs fun _ h => h.encryptedB0_eq E,
    micVerify_after_micAppend E (by decide) (by decide) State.aux hs fun _ _ => rfl⟩

/-- Settles O45: the written byte lies after the message, so the tag the verify computes is the old one. -/
theorem changedMicByteNeverMatches : Obligations.ChangedMicByteNeverMatches :=
  fun E _ _ b hlo hhi hfit hk =>
    have hs : MicFits _ := ⟨hlo, hhi, hfit⟩
    ⟨micVerify_after_changed_byte E (by decide) (by decide) dataB0 hs (fun _ h => h.encryptedB0_eq E) hk b,
      micVerify_after_changed_byte E (by decide) (by decide) State.aux hs (fun _ _ => rfl) hk b⟩

end Sys2Proof.Machine
end

section
/-!
The stream cipher engine for every block cipher (spec/44_stream_cipher.md R118): which operands the keystream
depends on, what a second `CIPHER` leaves, and `ENC` of a counter block against `CIPHER` of zero bytes.
-/

namespace Sys2Proof.Machine

/-! ## The operands of the keystream and of `CIPHER` -/

/-- The two states agree in everything that the keystream is computed from (R115). -/
structure SameStreamOperands (s t : State) : Prop where
  key : t.key = s.key
  dir : t.dir = s.dir
  addr : t.addr = s.addr
  cnt : t.cnt = s.cnt

/-- The two states agree in everything that `CIPHER` reads but the payload: the keystream, and where the
payload lies (R116). -/
structure SameCipherOperands (s t : State) : Prop extends SameStreamOperands s t where
  cfg : t.cfg = s.cfg
  off : t.off = s.off
  len : t.len = s.len

theorem SameStreamOperands.counterBlock_eq {s t : State} (h : SameStreamOperands s t) (i : Nat) :
    counterBlock t i = counterBlock s i := by
  rw [counterBlock, counterBlock, h.dir, h.addr, h.cnt]

theorem SameStreamOperands.keystreamBlock_eq (E : Block → Block → Block) {s t : State}
    (h : SameStreamOperands s t) (i : Nat) : keystreamBlock E t i = keystreamBlock E s i := by
  rw [keystreamBlock, keystreamBlock, h.key, h.counterBlock_eq]

theorem SameStreamOperands.keystreamByte_eq (E : Block → Block → Block) {s t : State}
    (h : SameStreamOperands s t) (p : Nat) : keystreamByte E t p = keystreamByte E s p := by
  rw [keystreamByte, keystreamByte, h.keystreamBlock_eq]

/-- R115: byte `k` of block `i` of the keystream, blocks counted from 0. -/
theorem keystreamByte_of_block (E : Block → Block → Block) (s : State) (i : Nat) {k : Nat} (hk : k < 16) :
    keystreamByte E s (16 * i + k) = (keystreamBlock E s (i + 1)).get k := by
  have hdiv : (16 * i + k) / 16 = i := by omega
  have hmod : (16 * i + k) % 16 = k := by omega
  rw [keystreamByte, hdiv, hmod]

/-! ## Runs that pass their checks -/

/-- R44, R119: a payload of legal length within the buffer. -/
theorem cipherWith_of_fits (E : Block → Block → Block) {s : State} (hlen : s.len.toNat ≤ 4080)
    (hfit : s.off.toNat + s.len.toNat ≤ s.cfg.bufsz) :
    cipherWith E s = .next (finish false (cipherLoop E s)) := by
  refine command_of_ok ((checkError_none_iff .cipher s).2 ⟨(lenOk_cipher_iff _).2 hlen, fun n hn => ?_⟩) _
  obtain rfl : s.len.toNat = n := Option.some.inj hn
  exact hfit

/-- R44: sixteen bytes within the buffer. -/
theorem encWith_of_fits (E : Block → Block → Block) {s : State} (hfit : s.off.toNat + 16 ≤ s.cfg.bufsz) :
    encWith E s =
      .next (finish false
        (memWrite s.off.toNat (E s.key (padBlock (memRead s s.off.toNat 16))).bytes s)) := by
  refine command_of_ok ((checkError_none_iff .enc s).2 ⟨rfl, fun n hn => ?_⟩) _
  obtain rfl : 16 = n := Option.some.inj hn
  exact hfit

/-! ## `CIPHER` twice -/

/-- What does not look at the buffer is the same in both states. -/
theorem SameButBuf.apply_eq {α : Type} {s t : State} (h : SameButBuf s t) (f : State → α) :
    f { t with buf := s.buf } = f s :=
  congrArg f h

/-- R12, R116: `CIPHER` keeps its operands, so a second run has the keystream of the first. -/
theorem sameCipherOperands_finish_cipherLoop (E : Block → Block → Block) (s : State) :
    SameCipherOperands s (finish false (cipherLoop E s)) :=
  have hframe := sameButBuf_finish_cipherLoop E s
  { key := hframe.apply_eq State.key
    dir := hframe.apply_eq State.dir
    addr := hframe.apply_eq State.addr
    cnt := hframe.apply_eq State.cnt
    cfg := hframe.apply_eq State.cfg
    off := hframe.apply_eq State.off
    len := hframe.apply_eq State.len }

/-- R118: `x ^ s ^ s = x` at each payload byte; the other bytes are touched by neither run. -/
theorem readByte_cipherLoop_again (E : Block → Block → Block) {s t : State} (hops : SameCipherOperands s t)
    (hbuf : ∀ a, readByte t a = readByte (cipherLoop E s) a) (a : Nat) :
    readByte (cipherLoop E t) a = readByte s a := by
  rw [(cipherLoop_spec E t).1, hops.off, hops.len, hops.keystreamByte_eq E, hbuf, (cipherLoop_spec E s).1]
  by_cases hpayload : s.off.toNat ≤ a ∧ a < s.off.toNat + s.len.toNat
  · simp only [if_pos hpayload, BitVec.xor_assoc, BitVec.xor_self, BitVec.xor_zero]
  · simp only [if_neg hpayload]

/-- A state that a command has ended in stays as it is when `AUX` is written with its own value and the
command ends again. -/
theorem finish_setAux_of_ended {t : State} {x : Block} {v : Status} (haux : x = t.aux)
    (hstatus : t.status = statusAfterEnd false v) : finish false (t.setAux x) = t := by
  have hended : statusAfterEnd false t.status = t.status := by rw [hstatus]; rfl
  rw [finish, setAux_status, hended, haux]
  rfl

/-- R118: the second run builds the same last counter block and finds `STATUS` already as it leaves it. -/
theorem sameButBuf_cipher_again (E : Block → Block → Block) (s : State) :
    let t := finish false (cipherLoop E s)
    SameButBuf t (finish false (cipherLoop E t)) := by
  intro t
  have hops : SameCipherOperands s t := sameCipherOperands_finish_cipherLoop E s
  have hframe := sameButBuf_finish_cipherLoop E s
  have haux : t.aux = if s.len.toNat = 0 then s.aux else counterBlock s (ceil16 s.len.toNat) :=
    hframe.apply_eq State.aux
  have hstatus : t.status = statusAfterEnd false s.status := hframe.apply_eq State.status
  have hlast : (if t.len.toNat = 0 then t.aux else counterBlock t (ceil16 t.len.toNat)) = t.aux := by
    rw [hops.len, hops.counterBlock_eq]
    by_cases hzero : s.len.toNat = 0
    · rw [if_pos hzero]
    · rw [if_neg hzero, haux, if_neg hzero]
  have hagain := sameButBuf_finish_cipherLoop E t
  rwa [finish_setAux_of_ended hlast hstatus] at hagain

/-- Settles O48: the first run keeps the operands, so the second has the same checks and keystream. -/
theorem cipherTwiceRestoresThePayload : Obligations.CipherTwiceRestoresThePayload := by
  intro E s hlen hfit
  have hops := sameCipherOperands_finish_cipherLoop E s
  refine ⟨_, _, cipherWith_of_fits E hlen hfit, cipherWith_of_fits E ?_ ?_, fun a => ?_,
    sameButBuf_cipher_again E s⟩
  · rwa [hops.len]
  · rwa [hops.off, hops.len, hops.cfg]
  · exact readByte_cipherLoop_again E hops (fun _ => rfl) a

/-! ## `ENC` of a counter block -/

/-- R117: sixteen bytes that hold a block become its encryption. -/
theorem encWith_of_block (E : Block → Block → Block) {s : State} {x : Block}
    (hfit : s.off.toNat + 16 ≤ s.cfg.bufsz)
    (hx : ∀ k, k < 16 → readByte s (s.off.toNat + k) = x.get k) :
    ∃ t, encWith E s = .next t ∧ ∀ k, k < 16 → readByte t (s.off.toNat + k) = (E s.key x).get k := by
  have hbound : padBlock (memRead s s.off.toNat 16) = x :=
    block_ext_get fun k hk => (padBlock_memRead_get s _ hk).trans (hx k hk)
  obtain ⟨-, hwritten, -⟩ := finish_memWrite_block_spec s s.off.toNat (E s.key x)
  exact ⟨_, hbound ▸ encWith_of_fits E hfit, hwritten⟩

/-- R118 (c): a payload byte that is zero becomes its keystream byte. -/
theorem readByte_cipherLoop_of_zero (E : Block → Block → Block) {s : State} {p : Nat}
    (hp : p < s.len.toNat) (hzero : readByte s (s.off.toNat + p) = 0) :
    readByte (cipherLoop E s) (s.off.toNat + p) = keystreamByte E s p := by
  rw [readByte_cipherLoop_payload E s hp, hzero]
  exact BitVec.zero_xor

/-- Settles O49: both leave `S_(i+1)`, `ENC` as the encryption of the counter block of `s`, `CIPHER` as block
`i` of the keystream of `r`. -/
theorem encOfTheCounterBlockIsTheKeystream : Obligations.EncOfTheCounterBlockIsTheKeystream := by
  intro E s r i hkey hdir haddr hcnt hencFits hcounter hblock hlen hfit hzero
  have hops : SameStreamOperands s r := ⟨hkey, hdir, haddr, hcnt⟩
  obtain ⟨t, ht, henc⟩ := encWith_of_block E hencFits hcounter
  refine ⟨t, _, ht, cipherWith_of_fits E hlen hfit, fun k hk => ?_⟩
  rw [Nat.add_assoc]
  calc readByte t (s.off.toNat + k)
      = (keystreamBlock E s (i + 1)).get k := henc k hk
    _ = (keystreamBlock E r (i + 1)).get k := by rw [hops.keystreamBlock_eq]
    _ = keystreamByte E r (16 * i + k) := (keystreamByte_of_block E r i hk).symm
    _ = readByte (cipherLoop E r) (r.off.toNat + (16 * i + k)) :=
        (readByte_cipherLoop_of_zero E (by omega) (by rw [← Nat.add_assoc, hzero k hk])).symm

end Sys2Proof.Machine
end

section
/-!
Errors and what a command leaves in `STATUS` (spec/60_exceptions.md R141 to R144), and the transactions that
cannot tell one key from another (R154).
-/

namespace Sys2Proof.Machine

/-! ## The error a command reports -/

/-- R141: the limits of `LEN`, command by command. -/
theorem lenOk_eq_false_iff (i : Instr) (len : Nat) :
    lenOk i len = false ↔
      (i ∈ [Instr.micapp, .micver, .mic0app, .mic0ver] ∧ (len = 0 ∨ 255 < len)) ∨
        (i = .cipher ∧ 4080 < len) := by
  have hmic : micLenOk len = false ↔ len = 0 ∨ 255 < len := by
    rw [← Bool.not_eq_true, micLenOk_iff]
    omega
  cases i with
  | micapp | micver | mic0app | mic0ver => simpa [lenOk] using hmic
  | _ => simp [lenOk]

/-- R44: `BUILD` alone has no footprint. -/
theorem ne_build_of_need_eq_some {i : Instr} {len n : Nat} (h : need i len = some n) : i ≠ .build := by
  rintro rfl
  cases h

/-- R142: a command that is decoded has no opcode error left to report. -/
theorem checkError_ne_opcode (i : Instr) (s : State) : checkError i s ≠ some .opcode := by
  unfold checkError
  cases lenOk i s.len.toNat <;> cases need i s.len.toNat <;> simp

/-- The status an effect leaves shows no error, so `ERR` after a command is what its checks found. -/
theorem exec_err_eq_checkError (i : Instr) (s : State) :
    ∃ t, exec i s = .next t ∧ t.status.err = checkError i s := by
  rcases exec_cases i s with ⟨c, herr, he⟩ | ⟨hok, he⟩
  · exact ⟨_, he, herr.symm⟩
  · have herr : (commandEffect i s).status.err = none := by rw [commandEffect_status]; rfl
    exact ⟨_, he, herr.trans hok.symm⟩

/-- Settles O51: `ERR` is the outcome of the checks, and each code is one outcome of theirs. -/
theorem errorCausesAndTheirPriority : Obligations.ErrorCausesAndTheirPriority := by
  intro i s
  obtain ⟨t, he, herr⟩ := exec_err_eq_checkError i s
  refine ⟨t, he, ?len, ?range, ?opcode⟩
  case len => rw [herr, checkError_len_iff, lenOk_eq_false_iff]
  case range =>
    rw [herr, checkError_range_iff, ne_eq, checkError_len_iff, Bool.not_eq_false]
    constructor
    · rintro ⟨hlen, n, hneed, hover⟩
      exact ⟨hlen, ne_build_of_need_eq_some hneed, n, hneed, hover⟩
    · rintro ⟨hlen, -, hover⟩
      exact ⟨hlen, hover⟩
  case opcode => exact herr ▸ checkError_ne_opcode i s

/-! ## `STATUS` after any command word -/

/-- Everything a command word can do: an error reported and nothing else, or the effect of its command. -/
theorem runWord_error_or_effect (w : Word) (s : State) :
    (∃ c, runWord w s = .next (raiseErr c s)) ∨
      ∃ i, decode w = .ok i ∧ runWord w s = .next (commandEffect i s) := by
  rcases runWord_cases w s with ⟨i, hdecode, hw⟩ | ⟨e, -, hw⟩
  · rcases exec_cases i s with ⟨c, -, he⟩ | ⟨-, he⟩
    · exact .inl ⟨c, hw.trans he⟩
    · exact .inr ⟨i, hdecode, hw.trans he⟩
  · exact .inl ⟨.opcode, hw⟩

/-- Settles O50: the effect of a command shows no error, so a word that shows one has only raised it. -/
theorem failedCommandChangesOnlyStatus : Obligations.FailedCommandChangesOnlyStatus := by
  intro w s t hrun herr
  rcases runWord_error_or_effect w s with ⟨c, hw⟩ | ⟨i, -, hw⟩
  · obtain rfl : raiseErr c s = t := Host.Outcome.next.inj (hw.symm.trans hrun)
    rfl
  · obtain rfl : commandEffect i s = t := Host.Outcome.next.inj (hw.symm.trans hrun)
    rw [commandEffect_status] at herr
    exact absurd rfl herr

/-- R143: `ERRS` is 1 and `ERR` is the code. -/
theorem statusWord_statusAfterError (c : Err) :
    statusWord (statusAfterError c) ∈ ([0x12, 0x22, 0x32] : List Word) := by
  cases c <;> decide

/-- R144: `ERR` is 0, and the two flags are any. -/
theorem statusWord_statusAfterEnd (m : Bool) (u : Status) :
    statusWord (statusAfterEnd m u) ∈ ([0x00, 0x01, 0x02, 0x03] : List Word) := by
  obtain ⟨_, e, _⟩ := u
  show statusWord { matched := m, errs := e, err := none } ∈ _
  cases m <;> cases e <;> decide

/-- R144: only a verify sets `MATCH`. -/
theorem verify_of_commandEffect_matched {i : Instr} {s : State}
    (h : (commandEffect i s).status.matched = true) : i = .micver ∨ i = .mic0ver := by
  cases i with
  | micver => exact .inl rfl
  | mic0ver => exact .inr rfl
  | _ => exact absurd h Bool.false_ne_true

/-- Settles O52: an error reads as one of three numbers, the end of a command as one of four, and the end keeps
the sticky flag. -/
theorem statusAfterAnyCommand : Obligations.StatusAfterAnyCommand := by
  intro w s
  rcases runWord_error_or_effect w s with ⟨c, hw⟩ | ⟨i, hdecode, hw⟩
  · refine ⟨_, hw, ?_, fun hnone => absurd hnone (Option.some_ne_none c), fun _ => rfl,
      fun hmatch => absurd hmatch Bool.false_ne_true⟩
    exact List.mem_append_right [0x00, 0x01, 0x02, 0x03] (statusWord_statusAfterError c)
  · have hstatus := commandEffect_status i s
    have herrs : (commandEffect i s).status.errs = s.status.errs := by rw [hstatus]; rfl
    refine ⟨_, hw, ?_, fun _ => herrs, herrs.trans, fun hmatch => ?_⟩
    · rw [hstatus]
      exact List.mem_append_left [0x12, 0x22, 0x32] (statusWord_statusAfterEnd _ _)
    · rw [← encode_of_decode hdecode]
      exact (verify_of_commandEffect_matched hmatch).imp (congrArg encode) (congrArg encode)

/-! ## What no transaction but a command looks at -/

/-- R40: a stored register depends on the key in `KEY` alone. -/
theorem storeReg_withKey (r : Reg) (d : Word) (s : State) (k : Block) :
    ∃ k', storeReg r d { s with key := k } = { storeReg r d s with key := k' } := by
  cases r with
  | key j => exact ⟨k.set j.val (d.extractLsb' 0 8), rfl⟩
  | _ => exact ⟨k, rfl⟩

/-- R17, R41: no register reads as anything of the key. -/
theorem loadReg_withKey (r : Reg) (s : State) (k : Block) :
    loadReg r { s with key := k } = loadReg r s := by
  cases r <;> rfl

theorem bufWrite_withKey (a : Nat) (b : Byte) (s : State) (k : Block) :
    bufWrite a b { s with key := k } = { bufWrite a b s with key := k } := by
  rcases lt_or_ge a s.cfg.bufsz with ha | ha
  · rw [bufWrite_of_lt ha, bufWrite_of_lt (s := { s with key := k }) ha]
    rfl
  · rw [bufWrite_of_ge ha, bufWrite_of_ge (s := { s with key := k }) ha]

theorem transact_withKey {x : Transaction} (hx : ∀ d, x ≠ .regWrite 0 d) (s : State) (k : Block) :
    ∃ t k', transact x s = .next t ∧ transact x { s with key := k } = .next { t with key := k' } := by
  cases x with
  | regWrite n d =>
    have hn : n ≠ 0 := fun h => hx d (by rw [h])
    obtain ⟨k', hk'⟩ := storeReg_withKey (regOf n) d s k
    exact ⟨_, k', regWrite_store hn d s, (regWrite_store hn d _).trans (congrArg _ hk')⟩
  | regRead n =>
    refine ⟨_, k, rfl, ?_⟩
    rw [transact_regRead, regRead, loadReg_withKey]
    rfl
  | bufWrite a b => exact ⟨_, k, rfl, congrArg _ (bufWrite_withKey a b s k)⟩
  | bufRead a => exact ⟨_, k, rfl, rfl⟩

/-- Reset clears the key, whatever it was (R160). -/
theorem perform_withKey {x : Input} (hx : ∀ d, x ≠ .host (.regWrite 0 d)) (s : State) (k : Block) :
    ∃ t k', perform x s = .next t ∧ perform x { s with key := k } = .next { t with key := k' } := by
  cases x with
  | host x => exact transact_withKey (fun d h => hx d (congrArg Input.host h)) (s.setReply .done) k
  | reset => exact ⟨_, Block.zero, rfl, rfl⟩

/-- Settles O56: the step performs the input, and no input but a command lets the key into another field. -/
theorem keyIsNeverReadBack : Obligations.KeyIsNeverReadBack := by
  intro s k x rest hinputs hx
  rw [step_cons hinputs, step_cons (s := { s with key := k }) hinputs]
  exact perform_withKey hx (s.setInputs rest) k

end Sys2Proof.Machine
end

section
/-!
Reset at any time (spec/70_reset_and_hazards.md R160): the step that takes a reset and the state it leaves.
-/

namespace Sys2Proof.Machine

/-- R160: the step that takes a reset, the pending inputs after it kept (log 7). -/
theorem step_of_reset_input {s : State} {rest : List Input} (h : s.inputs = .reset :: rest) :
    step s = .next (applyReset (s.setInputs rest)) := by
  rw [step_cons h, perform_reset]

/-- R22: a reset lists no byte, so each address holds the free byte of the new index (log 1). -/
theorem readByte_applyReset (s : State) (a : Nat) :
    readByte (applyReset s) a = Config.powerUpByte (s.resets + 1) a := by
  have hbuf : (applyReset s).buf = [] := rfl
  have hresets : (applyReset s).resets = s.resets + 1 := rfl
  rw [readByte, hbuf, lookup_nil, Option.getD_none, hresets]

/-- Settles O10: the step resets the state, and the registers after it are those of `State.reset` (O9). -/
theorem resetInputClearsEveryRegister : Obligations.ResetInputClearsEveryRegister := by
  intro s rest hinputs
  obtain ⟨hoff, hlen, hval, hcrcr, haddr, hcnt, hdir, hdisc, htrail, hstatus, hblocks, -⟩ :=
    resetStateValues
  exact ⟨_, step_of_reset_input hinputs, hoff, hlen, hval, hcrcr, haddr, hcnt, hdir, hdisc, htrail, hstatus,
    hblocks, readByte_applyReset (s.setInputs rest), rfl, rfl⟩

end Sys2Proof.Machine
end
